-- ==== Sys2Proof/Word.lean ====
section
/-! DEFINITION. The types of the values the CORE holds (00_scope.md section 6): every one is unsigned, bit 0 is the
least significant bit, and a block or a plane buffer is a register file of a fixed number of entries (rules R20, R22). The sizes are the constants of rule R2. -/

namespace Sys2Proof

/-- `u32`: one value of a block, and one word on the host's bus. -/
abbrev Word := BitVec 32

/-- `u128`: one bit-plane, one bit for each lane (rule R22). -/
abbrev PlaneWord := BitVec 128

/-- One byte of the canonical serialisation of a packed buffer (rule R57). -/
abbrev Byte := BitVec 8

/-- `req_addr[10:0]`: a byte address in the 2 KiB window (rules R35, R50). -/
abbrev Addr := BitVec 11

/-- The 6 bits of the WIDTH register (rule R26). -/
abbrev WidthReg := BitVec 6

/-- `Block`: the values of the 128 lanes (rules R2, R20). -/
abbrev Block := Vector Word 128

/-- `Planes`: the 32 planes of the plane buffer (rule R22). -/
abbrev Planes := Vector PlaneWord 32

end Sys2Proof
end

