-- ==== Sys2Proof/Syntax.lean ====
section
/-! DEFINITION. The command set CORE-CMD v1: one constructor for each row of spec/opcode_table.json (rule R83). A
command is what a host write to CMD asks for; every other operand (BLK, PLN, OFFSET, WIDTH) is implicit (rule R82). -/

namespace Sys2Proof

/-- The 14 commands of rule R83. The immediate forms carry the unsigned number `b` of the field BIMM, which the
encoding holds in 6 bits (`Instr.WellFormed`). -/
inductive Instr where
  /-- NOP (rule R150). -/
  | nop
  /-- ANALYZE (rule R101). -/
  | analyze
  /-- ANALYZE.D (rule R102). -/
  | analyzeD
  /-- PACK (rule R123). -/
  | pack
  /-- PACK.D (rule R124). -/
  | packD
  /-- PACKI b (rule R126). -/
  | packI (b : Nat)
  /-- PACKI.D b (rule R127). -/
  | packID (b : Nat)
  /-- UNPACK (rule R137). -/
  | unpack
  /-- UNPACK.D (rule R138). -/
  | unpackD
  /-- UNPACKI b (rule R139). -/
  | unpackI (b : Nat)
  /-- UNPACKI.D b (rule R140). -/
  | unpackID (b : Nat)
  /-- DELTA (rule R113). -/
  | delta
  /-- UNDELTA (rule R114). -/
  | undelta
  /-- SRST (rule R151). -/
  | srst
  deriving DecidableEq, Repr

end Sys2Proof
end

