-- ==== Sys2Proof/WellFormed.lean ====
section
/-! DEFINITION. Which commands the encoding can hold: an immediate bit width is a number in [0, 63] (rules R81, R82,
R88). A width in 33 to 63 is well formed: it is a legal encoding that raises WidthRange when it executes (rule R84). -/

namespace Sys2Proof

/-- The number in BIMM fits the 6 bits of CMD[13:8] (rule R82: "taken as an unsigned number in [0, 63]"). -/
abbrev Instr.immediateFits (b : Nat) : Prop := b < 64

/-- A command the encoding can hold. -/
abbrev Instr.WellFormed : Instr → Prop
  | .packI b => immediateFits b
  | .packID b => immediateFits b
  | .unpackI b => immediateFits b
  | .unpackID b => immediateFits b
  | .nop => True
  | .analyze => True
  | .analyzeD => True
  | .pack => True
  | .packD => True
  | .unpack => True
  | .unpackD => True
  | .delta => True
  | .undelta => True
  | .srst => True

end Sys2Proof
end

