-- ==== Sys2Proof/Decode.lean ====
section
/-! DEFINITION. Decoding a command word and encoding a command (30_encoding.md). `decode` is rule R87, total on every
32-bit word; a word it turns away gets the name of the clause of rule R84 that makes it illegal. `encode` lays the
fields out as rule R81 shows them. Neither reads any state. -/

namespace Sys2Proof

/-- Why a word is no command: the clauses of rule R84. All of them raise IllegalCommand (rule R161); the machine
itself does not record which one it was. -/
inductive IllegalWord where
  /-- (a) a bit of [31:14] or [7:6] is set. -/
  | reservedBits
  /-- (b) BIMM is not 0 while I = 0. -/
  | immediateWithoutI
  /-- (c) OP is one of 0x6 to 0xE. -/
  | reservedOperation
  /-- (d) NOP, DELTA, UNDELTA or SRST with D = 1 or I = 1. -/
  | modifierNotAllowed
  /-- (e) ANALYZE with I = 1. -/
  | immediateNotAllowed
  deriving DecidableEq, Repr

/-- CMD[3:0], OP (rule R81). -/
def opField (w : Word) : BitVec 4 := w.extractLsb' 0 4

/-- CMD[4], D: delta mode (rule R81). -/
def deltaField (w : Word) : Bool := w.getLsbD 4

/-- CMD[5], I: the bit width is immediate (rule R81). -/
def immediateField (w : Word) : Bool := w.getLsbD 5

/-- CMD[7:6], which must be 0 (rule R81). -/
def lowReserved (w : Word) : BitVec 2 := w.extractLsb' 6 2

/-- CMD[13:8], BIMM (rule R81). -/
def bimmField (w : Word) : BitVec 6 := w.extractLsb' 8 6

/-- CMD[31:14], which must be 0 (rule R81). -/
def highReserved (w : Word) : BitVec 18 := w.extractLsb' 14 18

/-- A command that takes neither D nor I. -/
def plainOnly (d i : Bool) (c : Instr) : Except IllegalWord Instr :=
  if d = false ∧ i = false then .ok c else .error .modifierNotAllowed

/-- The `case op of` of rule R87, once the reserved bits and BIMM have been checked. -/
def decodeFields (op : BitVec 4) (d i : Bool) (b : Nat) : Except IllegalWord Instr :=
  match op.toNat with
  | 0x0 => plainOnly d i .nop
  | 0x1 => if i = false then .ok (if d then .analyzeD else .analyze) else .error .immediateNotAllowed
  | 0x2 => .ok (if i then (if d then .packID b else .packI b) else (if d then .packD else .pack))
  | 0x3 => .ok (if i then (if d then .unpackID b else .unpackI b) else (if d then .unpackD else .unpack))
  | 0x4 => plainOnly d i .delta
  | 0x5 => plainOnly d i .undelta
  | 0xF => plainOnly d i .srst
  | _ => .error .reservedOperation

/-- Rule R87: what a word written to CMD asks for. -/
def decode (w : Word) : Except IllegalWord Instr :=
  if highReserved w ≠ 0 ∨ lowReserved w ≠ 0 then .error .reservedBits
  else if immediateField w = false ∧ bimmField w ≠ 0 then .error .immediateWithoutI
  else decodeFields (opField w) (deltaField w) (immediateField w) (bimmField w).toNat

/-- The layout of rule R81, most significant field first: 18 zero bits, BIMM, 2 zero bits, I, D, OP. -/
def commandWord (op : BitVec 4) (d i : Bool) (b : BitVec 6) : Word :=
  0#18 ++ b ++ 0#2 ++ BitVec.ofBool i ++ BitVec.ofBool d ++ op

/-- The word of a command, from the columns OP, D, I and BIMM of rule R83. Of an immediate that does not fit
(no well-formed command has one) only the low 6 bits are kept. -/
def encode : Instr → Word
  | .nop => commandWord 0x0#4 false false 0#6
  | .analyze => commandWord 0x1#4 false false 0#6
  | .analyzeD => commandWord 0x1#4 true false 0#6
  | .pack => commandWord 0x2#4 false false 0#6
  | .packD => commandWord 0x2#4 true false 0#6
  | .packI b => commandWord 0x2#4 false true (BitVec.ofNat 6 b)
  | .packID b => commandWord 0x2#4 true true (BitVec.ofNat 6 b)
  | .unpack => commandWord 0x3#4 false false 0#6
  | .unpackD => commandWord 0x3#4 true false 0#6
  | .unpackI b => commandWord 0x3#4 false true (BitVec.ofNat 6 b)
  | .unpackID b => commandWord 0x3#4 true true (BitVec.ofNat 6 b)
  | .delta => commandWord 0x4#4 false false 0#6
  | .undelta => commandWord 0x5#4 false false 0#6
  | .srst => commandWord 0xF#4 false false 0#6

/-- A row's word as a bus word: the low `nbits` bits of `w` (a command has 32 of them, rule R80), every bit above
them 0. -/
def tableWord (nbits w : Nat) : Word := BitVec.ofNat 32 (w % 2 ^ min nbits 32)

/-- The command that `decode` reads from a word of the opcode table, none where it refuses the word. -/
def decodeTableWord (nbits w : Nat) : Option Instr := (decode (tableWord nbits w)).toOption

end Sys2Proof
end

