-- ==== Sys2Proof/Config.lean ====
section
/-! DEFINITION. What one implementation of the bit_width_analyzer CORE fixes: the parameters of rule R2 and the
identification constant of rule R31. The spec leaves no value open that a transaction could observe, so no free
value stands here; its open parameters (the latencies, the number of CORE copies in a system, the base address of the
window) are read by no rule and are named in notes/assumptions/4.md. -/

namespace Sys2Proof.Config

/-- `LANES`: values in a block (rule R2). -/
abbrev lanes : Nat := 128

/-- `VALW`: bits of a value (rule R2). -/
abbrev valw : Nat := 32

/-- `BMAX`: the largest bit width (rule R2). -/
abbrev bmax : Nat := 32

/-- The version of the command set, CORE-CMD v1, as IDR shows it (rule R31). -/
abbrev version : Nat := 1

end Sys2Proof.Config
end

