-- ==== Sys2Proof/Machine/State.lean ====
section
/-! DEFINITION. The state of the machine as plain data: the architectural tuple of 10_state.md section 1 (the fields
`blk` to `status`, 8266 bits, rule R33), and beside it the two ends of the host port: the events the host has issued
and not yet had served, and the response of the step just taken. IDR and CMD are not state (rules R30, R31); there is
no program counter and no mode (rules R24, R172). -/

namespace Sys2Proof.Machine

/-- The four sticky flags of STATUS (rule R28). Every other bit of the register reads 0 (rule R32). -/
@[ext]
structure Status where
  /-- STATUS[0]: an illegal command word was written. -/
  errIllcmd : Bool
  /-- STATUS[1]: a pack or unpack command was given b > 32. -/
  errWidth : Bool
  /-- STATUS[2]: a bad host access was made. -/
  errAcc : Bool
  /-- STATUS[8]: a pack command truncated; no fault. -/
  trunc : Bool
  deriving DecidableEq, Repr

/-- One transaction of the host port, one 32-bit word (rules R50 to R52). -/
inductive Transaction where
  /-- `MemRead(addr, 4)`. -/
  | read (addr : Addr)
  /-- `MemWrite(addr, 4, data)`. -/
  | write (addr : Addr) (data : Word)
  deriving DecidableEq, Repr

/-- What the host can do to the CORE (rules R3, R190, R191): issue one transaction, or pull `rst_n` low, either while
the CORE is idle or in place of the completion of a transaction already accepted. -/
inductive HostEvent where
  | request (t : Transaction)
  | reset (abandoned : Option Transaction)
  deriving DecidableEq, Repr

/-- `rsp_rdata` and `rsp_err` of the cycle in which `rsp_valid` is 1 (rule R50). -/
structure Response where
  rdata : Word
  err : Bool
  deriving DecidableEq, Repr

/-- The machine. -/
@[ext]
structure State where
  /-- BLK, the block buffer (rule R20). -/
  blk : Block
  /-- PLN, the plane buffer (rule R22). -/
  pln : Planes
  /-- OFFSET (rule R25). -/
  offset : Word
  /-- WIDTH (rule R26). -/
  width : WidthReg
  /-- MAXV (rule R27). -/
  maxv : Word
  /-- STATUS (rule R28). -/
  status : Status
  /-- What the host has issued and the CORE has not yet served, in order (rule R62); the host's side of the port. -/
  inbox : List HostEvent
  /-- The response given by the last step, none where it gave none (`rsp_valid` = 0); the CORE's side of the port. -/
  rsp : Option Response
  deriving DecidableEq, Repr

/-- A reason for the MACHINE to stop. There is none: "The CORE is never stuck, never needs recovery, and cannot hang"
(rule R170). The three faults of 60_exceptions.md do not stop it; each is a next state (`Machine.raise`). -/
inductive Fault where
  deriving DecidableEq, Repr

/-- A reason for the MODEL to give no meaning. -/
inductive Refusal where
  /-- Raised by an arm of `exec` whose command has no meaning yet (safe: the model stops where the hardware goes on).
  No arm raises it. -/
  | notModelled (mnemonic : String)
  deriving DecidableEq, Repr

/-- STATUS with no flag set. -/
def Status.clear : Status := { errIllcmd := false, errWidth := false, errAcc := false, trunc := false }

/-- The state after reset (rule R36): every register and buffer 0, the port idle with nothing issued. -/
def State.reset : State where
  blk := Vector.replicate 128 0#32
  pln := Vector.replicate 32 0#128
  offset := 0#32
  width := 0#6
  maxv := 0#32
  status := .clear
  inbox := []
  rsp := none

end Sys2Proof.Machine
end

