-- ==== Sys2Proof/Machine/Flags.lean ====
section
/-! DEFINITION. STATUS: how each flag is set, how the register reads, and how the host clears it (rules R28, R29, R32,
60_exceptions.md section 1). -/

namespace Sys2Proof.Machine

/-- The three faults of 60_exceptions.md. A fault refuses one transaction; the machine goes on (rule R160). -/
inductive PortFault where
  /-- A word written to CMD is no command (rule R161). -/
  | illegalCommand
  /-- A pack or unpack command was given a width above 32 (rule R162). -/
  | widthRange
  /-- A misaligned or unmapped address, or a write to a read-only register (rule R163). -/
  | accessFault
  deriving DecidableEq, Repr

/-- The code of a fault, which is the number of its STATUS bit. -/
def PortFault.code : PortFault → Nat
  | .illegalCommand => 0
  | .widthRange => 1
  | .accessFault => 2

/-- The number of the TRUNC bit in STATUS (rule R28). -/
def truncBit : Nat := 8

/-- Set the sticky bit of a fault; it stays 1 if it already was (rule R160). -/
def Status.setFault (f : PortFault) (st : Status) : Status :=
  match f with
  | .illegalCommand => { st with errIllcmd := true }
  | .widthRange => { st with errWidth := true }
  | .accessFault => { st with errAcc := true }

/-- Whether the sticky bit of a fault is set. -/
def Status.recorded (f : PortFault) (st : Status) : Bool :=
  match f with
  | .illegalCommand => st.errIllcmd
  | .widthRange => st.errWidth
  | .accessFault => st.errAcc

/-- Record whether a pack command truncated: TRUNC is set by one that did and never cleared (rule R125). -/
def Status.noteTruncation (truncated : Bool) (st : Status) : Status :=
  { st with trunc := st.trunc || truncated }

/-- One flag in its bit position. -/
def flagBit (flag : Bool) (n : Nat) : Word := if flag then 1#32 <<< n else 0#32

/-- STATUS as the host reads it: the flags in their bit positions, every other bit 0 (rules R28, R32). -/
def Status.word (st : Status) : Word :=
  flagBit st.errIllcmd PortFault.illegalCommand.code ||| flagBit st.errWidth PortFault.widthRange.code |||
    flagBit st.errAcc PortFault.accessFault.code ||| flagBit st.trunc truncBit

/-- A host write to STATUS clears each flag whose bit in `w` is 1 and leaves the others (rule R29). -/
def Status.writeOneToClear (w : Word) (st : Status) : Status where
  errIllcmd := st.errIllcmd && !w.getLsbD PortFault.illegalCommand.code
  errWidth := st.errWidth && !w.getLsbD PortFault.widthRange.code
  errAcc := st.errAcc && !w.getLsbD PortFault.accessFault.code
  trunc := st.trunc && !w.getLsbD truncBit

end Sys2Proof.Machine
end

