-- ==== Sys2Proof/Machine/Ops.lean ====
section
/-! DEFINITION. How a transaction ends: with a response and no error, or by taking a fault (rule R160). Taking a fault
is this machine's whole exception entry: nothing is saved, no mode changes and no control moves, so there is no
return from it either (rule R169); the host clears the sticky bit instead (`Status.writeOneToClear`). -/

namespace Sys2Proof.Machine

/-- The transaction is done and its response has `rsp_err = 0`; `data` is the word a read returns. -/
def respond (data : Word) (s : State) : State := { s with rsp := some { rdata := data, err := false } }

/-- A write, a command among them, is done: `rsp_rdata` is 0 for a write (rule R50). -/
def complete (s : State) : State := respond 0#32 s

/-- `raise f` (rule R160): the fault's own STATUS bit is set, the response has `rsp_err = 1` and `rsp_rdata = 0`, and
nothing else changes. -/
def raise (f : PortFault) (s : State) : State :=
  { s with status := s.status.setFault f, rsp := some { rdata := 0#32, err := true } }

end Sys2Proof.Machine
end

