-- ==== Sys2Proof/Machine/Operands.lean ====
section
/-! DEFINITION. The pure functions of the four units (00_scope.md sections 7 and 8) and the operands of a command: the
encoded block E of an encode command, the bit width b of the register forms. All arithmetic is exact or wraps
modulo 2^32; nothing is signed and nothing is a float (rule R9). The functions over whole blocks are irreducible: a
proof cites their lemmas in Laws/Operands.lean, and no unification walks through 128 lanes. -/

namespace Sys2Proof.Machine

/-- Wrapping addition (rule R5). -/
def add32 (a b : Word) : Word := a + b

/-- Wrapping subtraction (rule R5). -/
def sub32 (a b : Word) : Word := a - b

/-- The larger of two words, compared as unsigned numbers (rule R6). -/
def larger (a b : Word) : Word := if a.toNat < b.toNat then b else a

/-- `umax`: the largest value of a block (rule R6). -/
@[irreducible] def umax (E : Block) : Word := E.toList.foldl larger 0#32

/-- `width32`: the smallest b in [0, 32] with `v < 2^b` (rule R7). -/
@[irreducible] def width32 (v : Word) : Nat :=
  ((List.range (Config.bmax + 1)).find? fun b => decide (v.toNat < 2 ^ b)).getD Config.bmax

/-- The number whose bit k is entry k of the list, the sum of `bit k * 2^k` in rules R120 and R135. -/
def bitsToNat : List Bool → Nat
  | [] => 0
  | b :: bs => b.toNat + 2 * bitsToNat bs

/-- The register file whose entry i is `f i`. It is laid out from a list, which Lean's kernel evaluates in one pass. -/
def tabulate {α : Type} {n : Nat} (f : Fin n → α) : Vector α n := ⟨⟨List.ofFn f⟩, List.length_ofFn⟩

/-- `deltas`, the forward transform: every difference is taken from the unmodified input (rule R110). -/
@[irreducible] def deltas (V : Block) (off : Word) : Block :=
  tabulate fun i => sub32 V[i] (if i.val = 0 then off else V[i.val - 1])

/-- The sums of rule R111, each the one before it (first `v`) plus the next entry. -/
def accumulate (v : Word) : List Word → List Word
  | [] => []
  | g :: gs => add32 v g :: accumulate (add32 v g) gs

/-- There are as many sums as entries. -/
theorem length_accumulate (v : Word) (gs : List Word) : (accumulate v gs).length = gs.length := by
  induction gs generalizing v with
  | nil => rfl
  | cons g gs ih => simp [accumulate, ih]

/-- The inverse transform, which rule R111 calls "prefix": an inclusive running sum in lane order. -/
@[irreducible] def runningSum (G : Block) (off : Word) : Block :=
  ⟨⟨accumulate off G.toList⟩, (length_accumulate off G.toList).trans (by simp)⟩

/-- `plane(E, p)`: bit i is bit p of lane i (rule R120). -/
@[irreducible] def plane (E : Block) (p : Nat) : PlaneWord := BitVec.ofNat 128 (bitsToNat (E.toList.map (·.getLsbD p)))

/-- The planes after `pack(E, b)` has been stored: entries 0 to b-1 hold it, the others keep what they held
(rules R121, R122). -/
@[irreducible] def packInto (E : Block) (b : Nat) (P : Planes) : Planes :=
  tabulate fun p => if p.val < b then plane E p.val else P[p]

/-- `gather(P, b)`: bit p of lane i is bit i of plane p for p < b, and 0 above (rule R135). -/
@[irreducible] def gather (P : Planes) (b : Nat) : Block :=
  tabulate fun i => BitVec.ofNat 32 (bitsToNat ((P.toList.take b).map (·.getLsbD i.val)))

/-- E, the block an encode command works on: BLK in plain mode, its deltas in delta mode (rules R10, R128). -/
def encodedBlock (d : Bool) (s : State) : Block := if d then deltas s.blk s.offset else s.blk

/-- V, the block a decode command stores, from the gathered block G (rules R10, R136). -/
def decodedBlock (d : Bool) (G : Block) (s : State) : Block := if d then runningSum G s.offset else G

/-- b of a register form, I = 0 (rule R82). The immediate forms take b from the command word. -/
def registerWidth (s : State) : Nat := s.width.toNat

end Sys2Proof.Machine
end

