-- ==== Sys2Proof/Machine/Analyzer.lean ====
section
/-! DEFINITION. The bit_width_analyzer unit: ANALYZE and ANALYZE.D (40_bit_width_analyzer.md). -/

namespace Sys2Proof.Machine

/-- The common body of rules R101 and R102: MAXV and WIDTH get `analyze(E)` (rule R100). -/
def analyzeBlock (E : Block) (s : State) : State :=
  complete { s with maxv := umax E, width := BitVec.ofNat 6 (width32 (umax E)) }

/-- ANALYZE (rule R101). -/
def execAnalyze (s : State) : Host.Outcome State Fault Refusal := .next (analyzeBlock (encodedBlock false s) s)

/-- ANALYZE.D (rule R102). -/
def execAnalyzeD (s : State) : Host.Outcome State Fault Refusal := .next (analyzeBlock (encodedBlock true s) s)

end Sys2Proof.Machine
end

