-- ==== Sys2Proof/Machine/Packer.lean ====
section
/-! DEFINITION. The bit_packer unit: PACK, PACK.D, PACKI and PACKI.D (42_bit_packer.md). -/

namespace Sys2Proof.Machine

/-- `exec_pack(d, b)`, the common body of the four pack commands (rule R128): the width check comes first, then planes
0 to b-1 are written, and TRUNC records a width below the true one (rule R125). -/
def packAt (d : Bool) (b : Nat) (s : State) : State :=
  if Config.bmax < b then raise .widthRange s
  else
    complete { s with
      pln := packInto (encodedBlock d s) b s.pln
      status := s.status.noteTruncation (decide (b < width32 (umax (encodedBlock d s)))) }

/-- PACK (rule R123). -/
def execPack (s : State) : Host.Outcome State Fault Refusal := .next (packAt false (registerWidth s) s)

/-- PACK.D (rule R124). -/
def execPackD (s : State) : Host.Outcome State Fault Refusal := .next (packAt true (registerWidth s) s)

/-- PACKI b (rule R126). -/
def execPackI (b : Nat) (s : State) : Host.Outcome State Fault Refusal := .next (packAt false b s)

/-- PACKI.D b (rule R127). -/
def execPackID (b : Nat) (s : State) : Host.Outcome State Fault Refusal := .next (packAt true b s)

end Sys2Proof.Machine
end

