-- ==== Sys2Proof/Machine/System.lean ====
section
/-! DEFINITION. NOP and SRST (44_system_commands.md), and the hardware reset beside SRST (70_reset_and_hazards.md). -/

namespace Sys2Proof.Machine

/-- The reset state of rule R36 for a CORE whose host still has events to issue: they are the host's, not the CORE's
(10_state.md section 9), so no reset takes them away. -/
def cleared (s : State) : State := { State.reset with inbox := s.inbox }

/-- NOP: nothing changes, and the response has `err = 0` (rule R150). -/
def execNop (s : State) : Host.Outcome State Fault Refusal := .next (complete s)

/-- SRST: the state of a hardware reset, with a response whose `err` is 0 (rules R151, R192). -/
def execSrst (s : State) : Host.Outcome State Fault Refusal := .next (complete (cleared s))

/-- `rst_n` = 0 (rules R190, R191): the reset state and no response, whatever transaction it abandons. -/
def hardwareReset (s : State) : State := cleared s

end Sys2Proof.Machine
end

