-- ==== Sys2Proof/Machine/Transformer.lean ====
section
/-! DEFINITION. The delta_transformer unit on its own: DELTA and UNDELTA, in place and simultaneous
(41_delta_transformer.md). -/

namespace Sys2Proof.Machine

/-- DELTA (rule R113). -/
def execDelta (s : State) : Host.Outcome State Fault Refusal :=
  .next (complete { s with blk := deltas s.blk s.offset })

/-- UNDELTA (rule R114). -/
def execUndelta (s : State) : Host.Outcome State Fault Refusal :=
  .next (complete { s with blk := runningSum s.blk s.offset })

end Sys2Proof.Machine
end

