-- ==== Sys2Proof/Machine/Unpacker.lean ====
section
/-! DEFINITION. The bit_unpacker unit: UNPACK, UNPACK.D, UNPACKI and UNPACKI.D (43_bit_unpacker.md). -/

namespace Sys2Proof.Machine

/-- `exec_unpack(d, b)`, the common body of the four unpack commands (rule R136): the width check comes first, then all
of BLK is written. -/
def unpackAt (d : Bool) (b : Nat) (s : State) : State :=
  if Config.bmax < b then raise .widthRange s
  else complete { s with blk := decodedBlock d (gather s.pln b) s }

/-- UNPACK (rule R137). -/
def execUnpack (s : State) : Host.Outcome State Fault Refusal := .next (unpackAt false (registerWidth s) s)

/-- UNPACK.D (rule R138). -/
def execUnpackD (s : State) : Host.Outcome State Fault Refusal := .next (unpackAt true (registerWidth s) s)

/-- UNPACKI b (rule R139). -/
def execUnpackI (b : Nat) (s : State) : Host.Outcome State Fault Refusal := .next (unpackAt false b s)

/-- UNPACKI.D b (rule R140). -/
def execUnpackID (b : Nat) (s : State) : Host.Outcome State Fault Refusal := .next (unpackAt true b s)

end Sys2Proof.Machine
end

