-- ==== Sys2Proof/Machine/Dispatch.lean ====
section
/-! DEFINITION. The meaning of each command, inside the write transaction that asks for it (rules R80, R83). -/

namespace Sys2Proof.Machine

/-- One whole command, performed atomically on the state the earlier transactions left (rule R61). -/
def exec (i : Instr) (s : State) : Host.Outcome State Fault Refusal :=
  match i with
  | .nop => Sys2Proof.Machine.execNop s
  | .analyze => Sys2Proof.Machine.execAnalyze s
  | .analyzeD => Sys2Proof.Machine.execAnalyzeD s
  | .pack => Sys2Proof.Machine.execPack s
  | .packD => Sys2Proof.Machine.execPackD s
  | .packI b => Sys2Proof.Machine.execPackI b s
  | .packID b => Sys2Proof.Machine.execPackID b s
  | .unpack => Sys2Proof.Machine.execUnpack s
  | .unpackD => Sys2Proof.Machine.execUnpackD s
  | .unpackI b => Sys2Proof.Machine.execUnpackI b s
  | .unpackID b => Sys2Proof.Machine.execUnpackID b s
  | .delta => Sys2Proof.Machine.execDelta s
  | .undelta => Sys2Proof.Machine.execUndelta s
  | .srst => Sys2Proof.Machine.execSrst s

end Sys2Proof.Machine
end

