-- ==== Sys2Proof/Machine/Window.lean ====
section
/-! DEFINITION. The 2 KiB window: the address map (rule R55), what each location reads, and how a plane word is cut into
bus words and bytes (rules R54, R57, R58). -/

namespace Sys2Proof.Machine

/-- What stands at a mapped word address (rule R55). -/
inductive Location where
  | blk (i : Fin 128)
  | pln (p : Fin 32) (k : Fin 4)
  | cmd
  | status
  | offset
  | width
  | maxv
  | idr
  deriving DecidableEq, Repr

/-- Word k of plane p (rule R54). -/
def planeWordAt (W : PlaneWord) (k : Nat) : Word := W.extractLsb' (32 * k) 32

/-- A plane with word k replaced and its other 96 bits kept (rule R54). -/
def withPlaneWord (W : PlaneWord) (k : Nat) (v : Word) : PlaneWord :=
  (W &&& ~~~((0xFFFFFFFF#32).setWidth 128 <<< (32 * k))) ||| (v.setWidth 128 <<< (32 * k))

/-- The addresses of the six registers (rule R55). -/
def cmdAddr : Addr := 0x400#11
def statusAddr : Addr := 0x404#11
def offsetAddr : Addr := 0x408#11
def widthAddr : Addr := 0x40C#11
def maxvAddr : Addr := 0x410#11
def idrAddr : Addr := 0x414#11

/-- The address of BLK[i] (rule R53). -/
def blkAddr (i : Nat) : Addr := BitVec.ofNat 11 (4 * i)

/-- The address of word k of PLN[p] (rule R54). -/
def plnAddr (p k : Nat) : Addr := BitVec.ofNat 11 (0x200 + 16 * p + 4 * k)

/-- `req_addr[1:0] = 0` (rule R59). -/
def aligned (a : Addr) : Bool := a.toNat % 4 == 0

/-- The location a word-aligned address names, none where the window is unmapped (rules R53, R54, R55). -/
def locate (a : Addr) : Option Location :=
  if h : a.toNat < 0x200 then some (.blk ⟨a.toNat / 4, by omega⟩)
  else if h : a.toNat < 0x400 then
    some (.pln ⟨(a.toNat - 0x200) / 16, by omega⟩ ⟨(a.toNat - 0x200) / 4 % 4, by omega⟩)
  else if a = cmdAddr then some .cmd
  else if a = statusAddr then some .status
  else if a = offsetAddr then some .offset
  else if a = widthAddr then some .width
  else if a = maxvAddr then some .maxv
  else if a = idrAddr then some .idr
  else none

/-- The word address of a location (rule R55). -/
def Location.addr : Location → Addr
  | .blk i => blkAddr i.val
  | .pln p k => plnAddr p.val k.val
  | .cmd => cmdAddr
  | .status => statusAddr
  | .offset => offsetAddr
  | .width => widthAddr
  | .maxv => maxvAddr
  | .idr => idrAddr

/-- IDR: LANES in [31:16], VALW in [15:8], the version in [7:0] (rule R31). -/
def idrValue : Word :=
  BitVec.ofNat 16 Config.lanes ++ BitVec.ofNat 8 Config.valw ++ BitVec.ofNat 8 Config.version

/-- The word a location reads (the read column of rule R55). CMD reads 0 (rule R30); bits WIDTH does not have read 0
(rules R26, R32). -/
def readLocation (s : State) : Location → Word
  | .blk i => s.blk[i]
  | .pln p k => planeWordAt s.pln[p] k.val
  | .cmd => 0#32
  | .status => s.status.word
  | .offset => s.offset
  | .width => s.width.setWidth 32
  | .maxv => s.maxv
  | .idr => idrValue

/-- What a host read of address `a` would return, none where it raises AccessFault: alignment is checked before the
map (rules R59, R163, R166). -/
def peek (s : State) (a : Addr) : Option Word := if aligned a then (locate a).map (readLocation s) else none

/-- Byte n of a plane word (rule R57). -/
def planeByteAt (W : PlaneWord) (n : Nat) : Byte := W.extractLsb' (8 * n) 8

/-- The canonical byte serialisation of the packed buffer of width b: planes 0 to b-1, each 16 bytes, least
significant byte first (rule R58). -/
def serialise (P : Planes) (b : Nat) : List Byte :=
  (P.toList.take b).flatMap fun W => (List.range 16).map (planeByteAt W)

end Sys2Proof.Machine
end

