-- ==== Sys2Proof/Machine/Port.lean ====
section
/-! DEFINITION. The host port: what one transaction and one host event do (rules R51, R53 to R55, R163, R166, R190,
R191), and placing a command where the next step takes it. -/

namespace Sys2Proof.Machine

/-- A host read: the location's word, or AccessFault; nothing else changes (rules R55, R60, R163). -/
def busRead (a : Addr) (s : State) : State :=
  match peek s a with
  | some v => respond v s
  | none => raise .accessFault s

/-- A host write to CMD: the word is decoded, and the command it encodes is performed within this transaction, or
IllegalCommand is raised (rules R30, R80, R161). -/
def writeCmd (w : Word) (s : State) : Host.Outcome State Fault Refusal :=
  match decode w with
  | .ok i => exec i s
  | .error _ => .next (raise .illegalCommand s)

/-- A host write to a mapped location (the write column of rule R55). OFFSET stores all 32 bits, WIDTH the low 6
(rules R25, R26); MAXV and IDR are read-only (rule R163). -/
def writeLocation (l : Location) (v : Word) (s : State) : Host.Outcome State Fault Refusal :=
  match l with
  | .blk i => .next (complete { s with blk := s.blk.set i v })
  | .pln p k => .next (complete { s with pln := s.pln.set p (withPlaneWord s.pln[p] k.val v) })
  | .cmd => writeCmd v s
  | .status => .next (complete { s with status := s.status.writeOneToClear v })
  | .offset => .next (complete { s with offset := v })
  | .width => .next (complete { s with width := v.setWidth 6 })
  | .maxv => .next (raise .accessFault s)
  | .idr => .next (raise .accessFault s)

/-- A host write: alignment first, then the map, then the location (rules R59, R166). -/
def busWrite (a : Addr) (v : Word) (s : State) : Host.Outcome State Fault Refusal :=
  if aligned a then
    match locate a with
    | some l => writeLocation l v s
    | none => .next (raise .accessFault s)
  else .next (raise .accessFault s)

/-- One transaction (rule R51). -/
def transact (t : Transaction) (s : State) : Host.Outcome State Fault Refusal :=
  match t with
  | .read a => .next (busRead a s)
  | .write a v => busWrite a v s

/-- One event of the host. -/
def serve (e : HostEvent) (s : State) : Host.Outcome State Fault Refusal :=
  match e with
  | .request t => transact t s
  | .reset _ => .next (hardwareReset s)

/-- Nothing is issued, so the CORE does nothing, and gives no response (rules R3, R190). -/
def idle (s : State) : State := { s with rsp := none }

/-- The write of a word to CMD. -/
def commandEvent (w : Word) : HostEvent := .request (.write cmdAddr w)

end Sys2Proof.Machine
end

