-- ==== Sys2Proof/Machine/Step.lean ====
section
/-! DEFINITION. One step: the CORE serves the first event the host has issued, one at a time and in order (rules R3,
R51, R62). The CORE fetches nothing (rule R24): a command comes to it as a host write to CMD, so the place where the
next step takes its command is the head of `inbox`. -/

namespace Sys2Proof.Machine

/-- One step of the machine. -/
def step (s : State) : Host.Outcome State Fault Refusal :=
  match s.inbox with
  | [] => .next (idle s)
  | e :: rest => serve e { s with inbox := rest }

/-- The state in which the host has issued the write of this command word to CMD, ahead of all it had issued. -/
def State.withFetchWord (s : State) (nbits w : Nat) : State :=
  { s with inbox := commandEvent (tableWord nbits w) :: s.inbox }

end Sys2Proof.Machine
end

