-- ==== Sys2Proof/Machine/HostProgram.lean ====
section
/-! DEFINITION. What a host program is made of (30_encoding.md section 5): the text of a command (rule R88), and the
lines of a listing with the transactions each stands for (rule R89). A program is the host's; the CORE sees only the
transactions. -/

namespace Sys2Proof.Machine

/-- One line of a listing (rule R89): a transaction, a command, or a pseudo-instruction. -/
inductive Line where
  | wr (a : Addr) (v : Word)
  | rd (a : Addr)
  | command (i : Instr)
  | setoff (v : Word)
  | setw (b : Word)
  | clrst
  | ldblk (V : Block)
  | ldpln (p : Fin 32) (W : PlaneWord)
  | rdblk
  | rdpln (p : Fin 32)
  | encode
  | encodeD
  | decode (b : Nat)
  | decodeD (b : Nat)
  deriving DecidableEq, Repr

/-- The write a command in a listing stands for (rule R88). -/
def commandWrite (i : Instr) : Transaction := .write cmdAddr (Sys2Proof.encode i)

/-- The transactions of a line, in order (rule R89). -/
def Line.expand : Line → List Transaction
  | .wr a v => [.write a v]
  | .rd a => [.read a]
  | .command i => [commandWrite i]
  | .setoff v => [.write offsetAddr v]
  | .setw b => [.write widthAddr b]
  | .clrst => [.write statusAddr 0x107#32]
  | .ldblk V => (List.finRange 128).map fun i => .write (blkAddr i.val) V[i]
  | .ldpln p W => (List.range 4).map fun k => .write (plnAddr p.val k) (planeWordAt W k)
  | .rdblk => (List.range 128).map fun i => .read (blkAddr i)
  | .rdpln p => (List.range 4).map fun k => .read (plnAddr p.val k)
  | .encode => [commandWrite .analyze, commandWrite .pack]
  | .encodeD => [commandWrite .analyzeD, commandWrite .packD]
  | .decode b => [commandWrite (.unpackI b)]
  | .decodeD b => [commandWrite (.unpackID b)]

/-- The host issues the transactions of a listing, after all it had issued. -/
def State.issue (s : State) (lines : List Line) : State :=
  { s with inbox := s.inbox ++ (lines.flatMap Line.expand).map .request }

/-- The value of a digit, none for a character that is no digit of the base. -/
def digitValue (base : Nat) (c : Char) : Option Nat :=
  let n := c.toNat
  let v := if 48 ≤ n ∧ n ≤ 57 then n - 48 else if 65 ≤ n ∧ n ≤ 70 then n - 55 else if 97 ≤ n ∧ n ≤ 102 then n - 87 else 16
  if v < base then some v else none

/-- The number that a run of digits writes, after what stands left of it. -/
def parseDigits (base : Nat) : Nat → List Char → Option Nat
  | acc, [] => some acc
  | acc, c :: cs => (digitValue base c).bind fun d => parseDigits base (acc * base + d) cs

/-- A decimal or 0x-hexadecimal number (rule R88). -/
def parseNumber : List Char → Option Nat
  | [] => none
  | '0' :: 'x' :: c :: cs => parseDigits 16 0 (c :: cs)
  | c :: cs => parseDigits 10 0 (c :: cs)

/-- The commands that take no operand, by mnemonic (rules R83, R88). -/
def plainCommands : List (String × Instr) :=
  [("NOP", .nop), ("ANALYZE", .analyze), ("ANALYZE.D", .analyzeD), ("PACK", .pack), ("PACK.D", .packD),
    ("UNPACK", .unpack), ("UNPACK.D", .unpackD), ("DELTA", .delta), ("UNDELTA", .undelta), ("SRST", .srst)]

/-- The commands that take a bit width, by mnemonic: the suffix I, before .D (rule R88). -/
def widthCommand (mnemonic : String) (b : Nat) : Option Instr :=
  if mnemonic = "PACKI" then some (.packI b)
  else if mnemonic = "PACKI.D" then some (.packID b)
  else if mnemonic = "UNPACKI" then some (.unpackI b)
  else if mnemonic = "UNPACKI.D" then some (.unpackID b)
  else none

/-- A command from the text of its mnemonic and of its operand, none for text that is no command: a command takes one
operand, a number in [0, 63], or none (rule R88). -/
def assemble (mnemonic : String) (operand : Option (List Char)) : Option Instr :=
  match operand with
  | none => (plainCommands.find? fun e => e.1 == mnemonic).map (·.2)
  | some text => ((parseNumber text).filter fun b => decide (b < 64)).bind (widthCommand mnemonic)

end Sys2Proof.Machine
end

