-- ==== Sys2Proof/Safety.lean ====
section
/-! DEFINITION. The terms in which claims about the machine are stated: what an outcome answers, which command packs or
unpacks at which width, what the encoded block of rule R10 is lane by lane (said from the rules, without the functions
the machine computes it with), and what counts as a safe run. A safe run never stops, leaves an error response on
record, and keeps WIDTH the width of MAXV as long as the host does not write WIDTH. -/

namespace Sys2Proof.Machine

/-- The outcome is a next state of which `P` holds. -/
def Answers (o : Host.Outcome State Fault Refusal) (P : State → Prop) : Prop := ∃ t, o = .next t ∧ P t

/-- The response of a write that was not refused (rule R50: `rsp_rdata` is 0 for writes). -/
def writeDone : Option Response := some { rdata := 0#32, err := false }

/-- The response of a transaction that raised a fault (rule R160 (2)). -/
def refusedTransaction : Option Response := some { rdata := 0#32, err := true }

/-- Commands one after the other, what the rules write as `ANALYZE ; PACK ; UNPACK`. -/
def execAll : List Instr → State → Host.Outcome State Fault Refusal
  | [], s => .next s
  | i :: is, s =>
    match exec i s with
    | .next t => execAll is t
    | .fault r => .fault r
    | .refused r => .refused r

/-- The state in which the host has issued one transaction ahead of all it had issued. -/
def State.issuing (s : State) (t : Transaction) : State := { s with inbox := .request t :: s.inbox }

/-- The transaction's address is misaligned or unmapped, or it writes a read-only register: the causes of AccessFault
(rules R55, R59, R163). -/
def Transaction.BadAccess : Transaction → Prop
  | .read a => a.toNat % 4 ≠ 0 ∨ 0x418 ≤ a.toNat
  | .write a _ => a.toNat % 4 ≠ 0 ∨ 0x410 ≤ a.toNat

/-- Every register and buffer of the architectural state is 0 (rule R36). -/
structure AllZero (s : State) : Prop where
  blk : ∀ (i : Nat) (_ : i < 128), s.blk[i] = 0#32
  pln : ∀ (p : Nat) (_ : p < 32), s.pln[p] = 0#128
  offset : s.offset = 0#32
  width : s.width = 0#6
  maxv : s.maxv = 0#32
  status : s.status = { errIllcmd := false, errWidth := false, errAcc := false, trunc := false }

/-- `m` is the largest value of `E`, compared as unsigned numbers (rule R6). -/
def MaximumOf (E : Block) (m : Word) : Prop :=
  (∀ (i : Nat) (_ : i < 128), E[i].toNat ≤ m.toNat) ∧ ∃ (i : Nat) (_ : i < 128), E[i] = m

/-- `b` is the smallest number with `v < 2^b` (rule R7). -/
def SmallestWidth (v : Word) (b : Nat) : Prop := ∀ c, b ≤ c ↔ v.toNat < 2 ^ c

/-- `i` is a pack command, with delta bit `d`, whose width operand in state `s` is `b` (rules R82, R123, R124, R126,
R127). -/
inductive PacksAt : Instr → Bool → Nat → State → Prop where
  | pack (s : State) : PacksAt .pack false s.width.toNat s
  | packD (s : State) : PacksAt .packD true s.width.toNat s
  | packI (b : Nat) (s : State) : PacksAt (.packI b) false b s
  | packID (b : Nat) (s : State) : PacksAt (.packID b) true b s

/-- `i` is an unpack command, with delta bit `d`, whose width operand in state `s` is `b` (rules R82, R137 to R140). -/
inductive UnpacksAt : Instr → Bool → Nat → State → Prop where
  | unpack (s : State) : UnpacksAt .unpack false s.width.toNat s
  | unpackD (s : State) : UnpacksAt .unpackD true s.width.toNat s
  | unpackI (b : Nat) (s : State) : UnpacksAt (.unpackI b) false b s
  | unpackID (b : Nat) (s : State) : UnpacksAt (.unpackID b) true b s

/-- `E` holds the differences of `V`, lane by lane: the first from the offset, each other from its predecessor (rule
R110). -/
def DeltaCoded (V : Block) (off : Word) (E : Block) : Prop :=
  E[0] = V[0] - off ∧ ∀ (i : Nat) (h : i + 1 < 128), E[i + 1] = V[i + 1] - V[i]

/-- `V` holds the inclusive running sum of `G`, seeded by the offset (rule R111). -/
def Accumulated (G : Block) (off : Word) (V : Block) : Prop :=
  V[0] = off + G[0] ∧ ∀ (i : Nat) (h : i + 1 < 128), V[i + 1] = V[i] + G[i + 1]

/-- `E` is the encoded block of an encode command with delta bit `d` (rule R10). -/
def Encodes (d : Bool) (s : State) (E : Block) : Prop :=
  if d then DeltaCoded s.blk s.offset E else E = s.blk

/-- Lane `i` of `G` gathers bit `i` of planes 0 to b-1, and has no other bit set (rule R135). -/
def Gathered (P : Planes) (b : Nat) (G : Block) : Prop :=
  ∀ (i : Nat) (_ : i < 128) (p : Nat) (_ : p < 32), G[i].getLsbD p = (decide (p < b) && P[p].getLsbD i)

/-- Some fault flag of STATUS is set (rule R205: the host then trusts no result). -/
def Status.FaultRecorded (st : Status) : Prop := ∃ f : PortFault, st.recorded f = true

/-- Safe: an error response of the step just taken is on record in STATUS and carries no data (rule R160). -/
def ErrorIsRecorded (s : State) : Prop :=
  ∀ r, s.rsp = some r → r.err = true → r.rdata = 0#32 ∧ s.status.FaultRecorded

/-- The host event is not a write to WIDTH. -/
def HostEvent.KeepsWidth (e : HostEvent) : Prop := ∀ v, e ≠ .request (.write widthAddr v)

/-- Safe: WIDTH is the width of MAXV, and the host has issued no write to WIDTH (rule R27). -/
structure WidthMatchesMaxv (s : State) : Prop where
  width_eq : s.width.toNat = width32 s.maxv
  inbox_keeps : ∀ e ∈ s.inbox, e.KeepsWidth

/-- Safe: the machine has not stopped. -/
def NotStopped (o : Host.Outcome State Fault Refusal) : Prop := Answers o fun _ => True

end Sys2Proof.Machine
end

