-- ==== Sys2Proof/Certificates/Slice0/Obligations.lean ====
section
/-! DEFINITION. What is claimed of the machine. Each statement's docstring names the rule of spec/ it formalises. An
outcome `Answers` a property when it is a next state that has it. -/

open Sys2Proof Sys2Proof.Machine

/-! ### Reset -/

/-- R36: after reset, after SRST and after `rst_n` every register and buffer is 0, and IDR reads 0x00802001 always. The
reset state is consistent: its MAXV and WIDTH are those of its all-zero block, and its packed buffer is empty. -/
def Obligations.ResetAndSrstLeaveAllZero : Prop :=
  AllZero State.reset ∧
  MaximumOf State.reset.blk State.reset.maxv ∧ SmallestWidth State.reset.maxv State.reset.width.toNat ∧
  serialise State.reset.pln State.reset.width.toNat = [] ∧
  (∀ s, Answers (exec .srst s) AllZero) ∧
  (∀ (s : State) (ab : Option Transaction) (rest : List HostEvent),
    Answers (step { s with inbox := .reset ab :: rest }) AllZero) ∧
  ∀ s, peek s 0x414#11 = some 0x00802001#32

/-- From R190, R191: `rst_n` low, alone or in place of the completion of any transaction, gives the reset state from every
state and no response; what the host has still to issue is the host's and stays (log entry 2). -/
def Obligations.HardwareResetFromEveryState : Prop :=
  ∀ (s : State) (ab : Option Transaction) (rest : List HostEvent),
    step { s with inbox := .reset ab :: rest } = .next { State.reset with inbox := rest }

/-- From R151, R192: SRST (0x0000000F) leaves the state of a hardware reset, and is a transaction whose response has
`err = 0`; a word with OP = 0xF and any other bit set is illegal. That what the host has still to issue stays is the
model's choice (log entry 2), not the rules'. -/
def Obligations.SrstGivesResetState : Prop :=
  decode 0x0000000F#32 = .ok .srst ∧
  (∀ w : Word, w.toNat % 16 = 0xF → w ≠ 0x0000000F#32 → ∃ e, decode w = .error e) ∧
  ∀ s : State, exec .srst s = .next { State.reset with inbox := s.inbox, rsp := writeDone }

/-- R150: NOP (0x00000000) leaves the state, and its response has `err = 0`; a word with OP = 0x0 and any other bit set
is illegal. -/
def Obligations.NopLeavesTheState : Prop :=
  decode 0x00000000#32 = .ok .nop ∧
  (∀ w : Word, w.toNat % 16 = 0x0 → w ≠ 0x00000000#32 → ∃ e, decode w = .error e) ∧
  ∀ s : State, exec .nop s = .next { s with rsp := writeDone }

/-! ### The pure functions -/

/-- R5: both operations wrap modulo 2^32, with the corner cases the rule lists. -/
def Obligations.AdditionAndSubtractionWrap : Prop :=
  (∀ a b : Word, (add32 a b).toNat = (a.toNat + b.toNat) % 2 ^ 32) ∧
  (∀ a b : Word, (sub32 a b).toNat = (a.toNat + (2 ^ 32 - b.toNat)) % 2 ^ 32) ∧
  (∀ a b : Word, add32 (sub32 a b) b = a) ∧
  (∀ a : Word, sub32 a a = 0#32) ∧
  sub32 0#32 1#32 = 0xFFFFFFFF#32 ∧ add32 0xFFFFFFFF#32 1#32 = 0#32

/-- R7: `width32 v` is the smallest b in [0, 32] with v < 2^b; it is floor(log2 v) + 1 for v > 0 and
ceil(log2(v + 1)) in exact arithmetic; the table of corners. -/
def Obligations.WidthIsSmallestExactFit : Prop :=
  (∀ v : Word, width32 v ≤ 32 ∧ v.toNat < 2 ^ width32 v ∧ ∀ b, v.toNat < 2 ^ b → width32 v ≤ b) ∧
  (∀ v : Word, 0 < v.toNat → width32 v = Nat.log 2 v.toNat + 1) ∧
  (∀ v : Word, width32 v = Nat.clog 2 (v.toNat + 1)) ∧
  width32 0#32 = 0 ∧ width32 1#32 = 1 ∧ width32 2#32 = 2 ∧ width32 3#32 = 2 ∧ width32 4#32 = 3 ∧
  width32 127#32 = 7 ∧ width32 128#32 = 8 ∧ width32 0x7FFFFFFF#32 = 31 ∧ width32 0x80000000#32 = 32 ∧
  width32 0xFFFFFFFF#32 = 32

/-- R8: `width32` is monotone; the width of the maximum is the largest of the lanes' widths and the width of the
bitwise OR of the lanes. -/
def Obligations.WidthOfMaximumIsWidthOfOr : Prop :=
  (∀ a b : Word, a.toNat ≤ b.toNat → width32 a ≤ width32 b) ∧
  ∀ E : Block,
    (∀ (i : Nat) (_ : i < 128), width32 E[i] ≤ width32 (umax E)) ∧
    (∃ (i : Nat) (_ : i < 128), width32 E[i] = width32 (umax E)) ∧
    width32 (E.toList.foldl (fun x v => x ||| v) 0#32) = width32 (umax E)

/-- R111: the inverse transform is the sum of the offset and the lanes up to i, modulo 2^32, and satisfies the lane by
lane recurrence. -/
def Obligations.InverseTransformIsRunningSum : Prop :=
  ∀ (G : Block) (off : Word),
    Accumulated G off (runningSum G off) ∧
    ∀ (i : Nat) (_ : i < 128),
      (runningSum G off)[i].toNat = (off.toNat + ((G.toList.take (i + 1)).map BitVec.toNat).sum) % 2 ^ 32

/-- R112: the two transforms undo each other for every block and offset; a different offset at the inverse shifts
every lane by the difference. -/
def Obligations.TransformsAreMutuallyInverse : Prop :=
  ∀ (V : Block) (off : Word),
    runningSum (deltas V off) off = V ∧ deltas (runningSum V off) off = V ∧
    ∀ (off' : Word) (i : Nat) (_ : i < 128),
      (runningSum (deltas V off) off')[i] = add32 V[i] (sub32 off' off)

/-! ### The bit_width_analyzer -/

/-- R101: ANALYZE (0x00000001) puts the largest value of BLK in MAXV and the smallest width that holds it in WIDTH; it changes
nothing else and faults on no block. -/
def Obligations.AnalyzeStoresMaximumAndWidth : Prop :=
  decode 0x00000001#32 = .ok .analyze ∧
  ∀ s : State, Answers (exec .analyze s) fun t =>
    MaximumOf s.blk t.maxv ∧ SmallestWidth t.maxv t.width.toNat ∧
    t = { s with maxv := t.maxv, width := t.width, rsp := writeDone }

/-- R102: ANALYZE.D (0x00000011) does the same for the deltas of BLK against OFFSET, and does not store the deltas. -/
def Obligations.AnalyzeDStoresLargestDeltaAndWidth : Prop :=
  decode 0x00000011#32 = .ok .analyzeD ∧
  ∀ s : State, Answers (exec .analyzeD s) fun t =>
    (∃ E, DeltaCoded s.blk s.offset E ∧ MaximumOf E t.maxv) ∧ SmallestWidth t.maxv t.width.toNat ∧
    t = { s with maxv := t.maxv, width := t.width, rsp := writeDone }

/-- R103: the width ANALYZE stores fits every lane, is minimal, is 0 exactly for the all-zero block, is 32 exactly when
a lane is at least 0x80000000, and does not depend on the order of the lanes. -/
def Obligations.AnalyzedWidthFitsAndIsMinimal : Prop :=
  ∀ s : State, Answers (exec .analyze s) fun t =>
    (∀ (i : Nat) (_ : i < 128), s.blk[i].toNat < 2 ^ t.width.toNat) ∧
    (0 < t.width.toNat → ∃ (i : Nat) (_ : i < 128), 2 ^ (t.width.toNat - 1) ≤ s.blk[i].toNat) ∧
    (t.width.toNat = 0 ↔ ∀ (i : Nat) (_ : i < 128), s.blk[i] = 0#32) ∧
    (t.width.toNat = 32 ↔ ∃ (i : Nat) (_ : i < 128), 0x80000000 ≤ s.blk[i].toNat) ∧
    ∀ B : Block, B.toList.Perm s.blk.toList → Answers (exec .analyze { s with blk := B }) fun u =>
      u.maxv = t.maxv ∧ u.width = t.width

/-- R104: for BLK[i] = OFFSET + i, ANALYZE.D gives WIDTH = 1 and the delta-packed buffer is 16 bytes, while ANALYZE
gives ceil(log2(OFFSET + 128)) if OFFSET + 127 does not wrap (7 for OFFSET = 0, 11 for 1000), and 32 if it does. -/
def Obligations.DeltaModeAdvantageOnRamps : Prop :=
  ∀ s : State, (∀ (i : Nat) (_ : i < 128), s.blk[i] = s.offset + BitVec.ofNat 32 i) →
    (Answers (execAll [.analyzeD, .packD] s) fun t =>
      t.width = 1#6 ∧ t.maxv = 1#32 ∧ (serialise t.pln t.width.toNat).length = 16) ∧
    (s.offset.toNat + 127 < 2 ^ 32 → Answers (exec .analyze s) fun t =>
      t.width.toNat = Nat.clog 2 (s.offset.toNat + 128) ∧
      (s.offset = 0#32 → t.width = 7#6) ∧ (s.offset = 1000#32 → t.width = 11#6)) ∧
    (0xFFFFFF80 < s.offset.toNat → Answers (exec .analyze s) fun t =>
      t.maxv = 0xFFFFFFFF#32 ∧ t.width = 32#6)

/-! ### The delta_transformer -/

/-- R113: DELTA (0x00000004; with D = 1 or I = 1 illegal) replaces BLK by its deltas, every one from the old BLK; nothing
else changes. -/
def Obligations.DeltaReplacesBlockSimultaneously : Prop :=
  decode 0x00000004#32 = .ok .delta ∧
  (∀ w : Word, w.toNat % 16 = 0x4 → w.getLsbD 4 = true ∨ w.getLsbD 5 = true → ∃ e, decode w = .error e) ∧
  ∀ s : State, Answers (exec .delta s) fun t =>
    DeltaCoded s.blk s.offset t.blk ∧ t = { s with blk := t.blk, rsp := writeDone }

/-- R114: UNDELTA (0x00000005; with D = 1 or I = 1 illegal) replaces BLK by its inclusive running sum seeded by OFFSET;
nothing else changes. -/
def Obligations.UndeltaReplacesBlockByRunningSum : Prop :=
  decode 0x00000005#32 = .ok .undelta ∧
  (∀ w : Word, w.toNat % 16 = 0x5 → w.getLsbD 4 = true ∨ w.getLsbD 5 = true → ∃ e, decode w = .error e) ∧
  ∀ s : State, Answers (exec .undelta s) fun t =>
    Accumulated s.blk s.offset t.blk ∧ t = { s with blk := t.blk, rsp := writeDone }

/-- From R115: DELTA and UNDELTA undo each other; DELTA before ANALYZE or a pack does what the D form does, but for
BLK; an unpack that is not refused and then UNDELTA leaves the BLK of the D form (with b > 32 both unpack forms are
refused and UNDELTA alone would still change BLK, so that clause needs b ≤ 32, which R115 leaves unsaid). -/
def Obligations.DeltaFormsAreCompositions : Prop :=
  ∀ s : State,
    (Answers (execAll [.delta, .undelta] s) fun t => t.blk = s.blk) ∧
    (Answers (execAll [.undelta, .delta] s) fun t => t.blk = s.blk) ∧
    (Answers (execAll [.delta, .analyze] s) fun t => DeltaCoded s.blk s.offset t.blk ∧
      Answers (exec .analyzeD s) fun u => t.maxv = u.maxv ∧ t.width = u.width) ∧
    (Answers (execAll [.delta, .pack] s) fun t => Answers (exec .packD s) fun u => t.pln = u.pln ∧ t.status = u.status) ∧
    (∀ b, Answers (execAll [.delta, .packI b] s) fun t =>
      Answers (exec (.packID b) s) fun u => t.pln = u.pln ∧ t.status = u.status) ∧
    (s.width.toNat ≤ 32 → Answers (execAll [.unpack, .undelta] s) fun t =>
      Answers (exec .unpackD s) fun u => t.blk = u.blk) ∧
    (∀ b, b ≤ 32 → Answers (execAll [.unpackI b, .undelta] s) fun t =>
      Answers (exec (.unpackID b) s) fun u => t.blk = u.blk)

/-! ### The bit_packer and the bit_unpacker -/

/-- R128, R122: PACK, PACK.D, PACKI and PACKI.D at a width b in [0, 32] write bit p of lane l of the encoded block to
bit l of plane p for p < b, keep the other planes, set TRUNC exactly when a lane needs more than b bits (it stays set if
it was), and change nothing else; with b > 32 they raise WidthRange and write no plane. -/
def Obligations.PackWritesBitPlanes : Prop :=
  ∀ (i : Instr) (d : Bool) (b : Nat) (s : State), PacksAt i d b s →
    (b ≤ 32 → Answers (exec i s) fun t =>
      (∃ E, Encodes d s E ∧
        (∀ (p : Nat) (_ : p < 32), p < b → ∀ (l : Nat) (_ : l < 128), t.pln[p].getLsbD l = E[l].getLsbD p) ∧
        (t.status.trunc = true ↔ s.status.trunc = true ∨ ∃ (l : Nat) (_ : l < 128), 2 ^ b ≤ E[l].toNat)) ∧
      (∀ (p : Nat) (_ : p < 32), b ≤ p → t.pln[p] = s.pln[p]) ∧
      t = { s with pln := t.pln, status := { s.status with trunc := t.status.trunc }, rsp := writeDone }) ∧
    (32 < b → exec i s =
      .next { s with status := { s.status with errWidth := true }, rsp := refusedTransaction })

/-- R136, R135: UNPACK, UNPACK.D, UNPACKI and UNPACKI.D at a width b in [0, 32] gather bit l of planes 0 to b-1 into lane
l (every gathered value is below 2^b), put that block in BLK, or in delta mode its running sum seeded by OFFSET, and
change nothing else; with b > 32 they raise WidthRange and write no entry. -/
def Obligations.UnpackRebuildsTheBlock : Prop :=
  ∀ (i : Instr) (d : Bool) (b : Nat) (s : State), UnpacksAt i d b s →
    (b ≤ 32 → Answers (exec i s) fun t =>
      (∃ G, Gathered s.pln b G ∧ (∀ (l : Nat) (_ : l < 128), G[l].toNat < 2 ^ b) ∧
        if d then Accumulated G s.offset t.blk else t.blk = G) ∧
      t = { s with blk := t.blk, rsp := writeDone }) ∧
    (32 < b → exec i s =
      .next { s with status := { s.status with errWidth := true }, rsp := refusedTransaction })

/-- From R137, R138, R139, R140 (corner cases): at b = 0 no plane is read; the plain forms clear BLK and the delta forms
fill it with OFFSET. -/
def Obligations.UnpackAtWidthZeroFillsTheBlock : Prop :=
  ∀ (i : Instr) (d : Bool) (s : State), UnpacksAt i d 0 s → Answers (exec i s) fun t =>
    ∀ (l : Nat) (_ : l < 128), t.blk[l] = if d then s.offset else 0#32

/-- R162: a pack or unpack command, in any of the eight forms, whose width is above 32 raises WidthRange: ERR_WIDTH is
set, the response has `err = 1`, and nothing else changes (no plane, no block entry, not TRUNC). -/
def Obligations.WidthAbove32RaisesWidthRange : Prop :=
  ∀ (i : Instr) (d : Bool) (b : Nat) (s : State), PacksAt i d b s ∨ UnpacksAt i d b s → 32 < b →
    exec i s = .next { s with status := { s.status with errWidth := true }, rsp := refusedTransaction }

/-- R129: a pack at b at least the true width loses nothing and writes zero planes above the true width; below it, the
planes are those of the block reduced modulo 2^b; the planes depend on the encoded block and b alone, plane p on bit p
of the lanes alone; the packed size is 16 * b bytes. -/
def Obligations.PackIsLosslessOrReducesModulo : Prop :=
  ∀ (i : Instr) (d : Bool) (b : Nat) (s t : State), PacksAt i d b s → b ≤ 32 → exec i s = .next t →
    (width32 (umax (encodedBlock d s)) ≤ b → gather t.pln b = encodedBlock d s ∧
      ∀ (p : Nat) (_ : p < 32), width32 (umax (encodedBlock d s)) ≤ p → p < b → t.pln[p] = 0#128) ∧
    (∀ F : Block, (∀ (l : Nat) (_ : l < 128), F[l].toNat = (encodedBlock d s)[l].toNat % 2 ^ b) →
      ∀ (p : Nat) (_ : p < 32), p < b → t.pln[p] = plane F p) ∧
    (∀ (j : Instr) (e : Bool) (s' t' : State), PacksAt j e b s' → exec j s' = .next t' →
      ∀ (p : Nat) (_ : p < 32), p < b →
        (∀ (l : Nat) (_ : l < 128), (encodedBlock e s')[l].getLsbD p = (encodedBlock d s)[l].getLsbD p) →
        t'.pln[p] = t.pln[p]) ∧
    (serialise t.pln b).length = 16 * b

/-- R141: the round trip is exact. ANALYZE ; PACK ; UNPACK and ANALYZE.D ; PACK.D ; UNPACK.D give BLK back; so does any
pack at a width that is at least the true one followed by the unpack of the same mode at that width, also in another
CORE in any state whose planes 0 to b-1, and in delta mode OFFSET, are those the pack left. -/
def Obligations.PackUnpackRoundTripIsExact : Prop :=
  (∀ s : State, Answers (execAll [.analyze, .pack, .unpack] s) fun t => t.blk = s.blk) ∧
  (∀ s : State, Answers (execAll [.analyzeD, .packD, .unpackD] s) fun t => t.blk = s.blk) ∧
  (∀ (s : State) (b : Nat), b ≤ 32 → width32 (umax s.blk) ≤ b →
    Answers (execAll [.packI b, .unpackI b] s) fun t => t.blk = s.blk) ∧
  (∀ (s : State) (b : Nat), b ≤ 32 → width32 (umax (deltas s.blk s.offset)) ≤ b →
    Answers (execAll [.packID b, .unpackID b] s) fun t => t.blk = s.blk) ∧
  ∀ (i j : Instr) (d : Bool) (b : Nat) (s t u : State), PacksAt i d b s → UnpacksAt j d b u → b ≤ 32 →
    width32 (umax (encodedBlock d s)) ≤ b → exec i s = .next t →
    (∀ (p : Nat) (_ : p < 32), p < b → u.pln[p] = t.pln[p]) → (d = true → u.offset = s.offset) →
    Answers (exec j u) fun v => v.blk = s.blk

/-- From R123, R125, R103: a pack right after the analyze of the same mode is never refused and never truncates; it
leaves STATUS as it was. -/
def Obligations.PackAfterAnalyzeNeverTruncates : Prop :=
  ∀ s : State,
    (Answers (execAll [.analyze, .pack] s) fun t => t.status = s.status ∧ t.rsp = writeDone) ∧
    Answers (execAll [.analyzeD, .packD] s) fun t => t.status = s.status ∧ t.rsp = writeDone

/-- R142: what an unpack at width bu gives after a pack at width bp. The gathered values are, with bu at most bp, every
encoded value modulo 2^bu; with bu at least bp, the encoded value modulo 2^bp with what the stale planes bp to bu-1 hold
folded in. A plain unpack stores them, a delta unpack stores their running sum seeded by OFFSET, so an error in one
carries into every later lane. No unpack sets a flag. -/
def Obligations.MismatchedWidthsGiveWrongValuesSilently : Prop :=
  ∀ (i j : Instr) (d : Bool) (bp bu : Nat) (s t : State), PacksAt i d bp s → bp ≤ 32 → bu ≤ 32 → exec i s = .next t →
    (UnpacksAt j false bu t → Answers (exec j t) fun v => v.status = t.status ∧
      (bu ≤ bp → ∀ (l : Nat) (_ : l < 128), v.blk[l].toNat = (encodedBlock d s)[l].toNat % 2 ^ bu) ∧
      (bp ≤ bu → ∀ (l : Nat) (_ : l < 128), v.blk[l].toNat = (encodedBlock d s)[l].toNat % 2 ^ bp +
        ∑ p : Fin 32, if bp ≤ p.val ∧ p.val < bu ∧ s.pln[p].getLsbD l = true then 2 ^ p.val else 0)) ∧
    (UnpacksAt j true bu t → Answers (exec j t) fun v => v.status = t.status ∧
      (bu ≤ bp → ∀ (l : Nat) (_ : l < 128), v.blk[l].toNat = (t.offset.toNat +
        ∑ k : Fin 128, if k.val ≤ l then (encodedBlock d s)[k].toNat % 2 ^ bu else 0) % 2 ^ 32) ∧
      (bp ≤ bu → ∀ (l : Nat) (_ : l < 128), v.blk[l].toNat = (t.offset.toNat +
        ∑ k : Fin 128, if k.val ≤ l then (encodedBlock d s)[k].toNat % 2 ^ bp +
          ∑ p : Fin 32, (if bp ≤ p.val ∧ p.val < bu ∧ s.pln[p].getLsbD k.val = true then 2 ^ p.val else 0)
        else 0) % 2 ^ 32))

/-! ### The command word -/

/-- From R87: encoding a well-formed command and decoding it gives it back, and every word that decodes is the encoding of
the well-formed command it decodes to. -/
def Obligations.DecodeAndEncodeAgree : Prop :=
  (∀ i : Instr, i.WellFormed → decode (encode i) = .ok i) ∧
  ∀ (w : Word) (i : Instr), decode w = .ok i → i.WellFormed ∧ encode i = w

/-- R84: the illegal words are exactly those of clauses (a) to (e); an immediate form with BIMM in 33 to 63 is legal. -/
def Obligations.IllegalWordsAreExactlyTheFiveClauses : Prop :=
  (∀ w : Word, (∃ e, decode w = .error e) ↔
    (w.toNat / 2 ^ 14 ≠ 0 ∨ w.toNat / 2 ^ 6 % 4 ≠ 0) ∨
    (w.getLsbD 5 = false ∧ w.toNat / 2 ^ 8 % 64 ≠ 0) ∨
    (0x6 ≤ w.toNat % 16 ∧ w.toNat % 16 ≤ 0xE) ∨
    ((w.toNat % 16 = 0x0 ∨ w.toNat % 16 = 0x4 ∨ w.toNat % 16 = 0x5 ∨ w.toNat % 16 = 0xF) ∧
      (w.getLsbD 4 = true ∨ w.getLsbD 5 = true)) ∨
    (w.toNat % 16 = 0x1 ∧ w.getLsbD 5 = true)) ∧
  ∀ b, 33 ≤ b → b ≤ 63 → decode (encode (.packI b)) = .ok (.packI b) ∧
    decode (encode (.packID b)) = .ok (.packID b) ∧ decode (encode (.unpackI b)) = .ok (.unpackI b) ∧
    decode (encode (.unpackID b)) = .ok (.unpackID b)

/-- From R83, the table: a word encodes a row's command exactly when its bits under the row's mask are the row's match, and
the word of an immediate form is the match with b in [13:8]. -/
def Obligations.TableRowsByMaskAndMatch : Prop :=
  (∀ w : Word,
    (decode w = .ok .nop ↔ w &&& 0xFFFFFFFF#32 = 0x00000000#32) ∧
    (decode w = .ok .analyze ↔ w &&& 0xFFFFFFFF#32 = 0x00000001#32) ∧
    (decode w = .ok .analyzeD ↔ w &&& 0xFFFFFFFF#32 = 0x00000011#32) ∧
    (decode w = .ok .pack ↔ w &&& 0xFFFFFFFF#32 = 0x00000002#32) ∧
    (decode w = .ok .packD ↔ w &&& 0xFFFFFFFF#32 = 0x00000012#32) ∧
    ((∃ b, decode w = .ok (.packI b)) ↔ w &&& 0xFFFFC0FF#32 = 0x00000022#32) ∧
    ((∃ b, decode w = .ok (.packID b)) ↔ w &&& 0xFFFFC0FF#32 = 0x00000032#32) ∧
    (decode w = .ok .unpack ↔ w &&& 0xFFFFFFFF#32 = 0x00000003#32) ∧
    (decode w = .ok .unpackD ↔ w &&& 0xFFFFFFFF#32 = 0x00000013#32) ∧
    ((∃ b, decode w = .ok (.unpackI b)) ↔ w &&& 0xFFFFC0FF#32 = 0x00000023#32) ∧
    ((∃ b, decode w = .ok (.unpackID b)) ↔ w &&& 0xFFFFC0FF#32 = 0x00000033#32) ∧
    (decode w = .ok .delta ↔ w &&& 0xFFFFFFFF#32 = 0x00000004#32) ∧
    (decode w = .ok .undelta ↔ w &&& 0xFFFFFFFF#32 = 0x00000005#32) ∧
    (decode w = .ok .srst ↔ w &&& 0xFFFFFFFF#32 = 0x0000000F#32)) ∧
  ∀ b, b < 64 →
    decode (0x00000022#32 ||| BitVec.ofNat 32 b <<< 8) = .ok (.packI b) ∧
    decode (0x00000032#32 ||| BitVec.ofNat 32 b <<< 8) = .ok (.packID b) ∧
    decode (0x00000023#32 ||| BitVec.ofNat 32 b <<< 8) = .ok (.unpackI b) ∧
    decode (0x00000033#32 ||| BitVec.ofNat 32 b <<< 8) = .ok (.unpackID b)

/-- From R83: there are 266 legal command words in all. -/
def Obligations.LegalWordsNumber266 : Prop :=
  ∃ l : List Word, l.Nodup ∧ l.length = 266 ∧ ∀ w : Word, (∃ i, decode w = .ok i) ↔ w ∈ l

/-- From 95_test_vectors.md 2.1: sample words, written out from the fields of R81. -/
def Obligations.SampleWordsDecodeAsListed : Prop :=
  decode 0x00000000#32 = .ok .nop ∧ decode 0x00000001#32 = .ok .analyze ∧ decode 0x00000011#32 = .ok .analyzeD ∧
  decode 0x00000002#32 = .ok .pack ∧ decode 0x00000012#32 = .ok .packD ∧ decode 0x00000522#32 = .ok (.packI 5) ∧
  decode 0x00003F32#32 = .ok (.packID 63) ∧ decode 0x00000003#32 = .ok .unpack ∧
  decode 0x00000013#32 = .ok .unpackD ∧ decode 0x00002023#32 = .ok (.unpackI 32) ∧
  decode 0x00000D33#32 = .ok (.unpackID 13) ∧ decode 0x00000004#32 = .ok .delta ∧
  decode 0x00000005#32 = .ok .undelta ∧ decode 0x0000000F#32 = .ok .srst ∧
  decode 0x00002162#32 = .error .reservedBits

/-- From R80, R161: a host write to CMD of a word that encodes a command performs exactly that command, in that step, and of any
other word raises IllegalCommand (ERR_ILLCMD is set, `err = 1`, nothing else changes); the step after `withFetchWord`
performs the word's command (that clause is about the model's own function, log entry 1). -/
def Obligations.StepRunsTheDecodedCommand : Prop :=
  (∀ (s : State) (w : Word) (e : IllegalWord), decode w = .error e → step (s.issuing (.write 0x400#11 w)) =
    .next { s with status := { s.status with errIllcmd := true }, rsp := refusedTransaction }) ∧
  (∀ (s : State) (w : Word) (i : Instr), decode w = .ok i → step (s.issuing (.write 0x400#11 w)) = exec i s) ∧
  ∀ (s : State) (w : Nat) (i : Instr), decodeTableWord 32 w = some i → step (s.withFetchWord 32 w) = exec i s

/-! ### The host port -/

/-- R53: BLK[i] reads and is written whole at 4*i; no other state changes. -/
def Obligations.BlkEntriesReadAndWriteAtFourI : Prop :=
  ∀ (s : State) (i : Nat) (_ : i < 128) (v : Word),
    step (s.issuing (.read (BitVec.ofNat 11 (4 * i)))) =
      .next { s with rsp := some { rdata := s.blk[i], err := false } } ∧
    Answers (step (s.issuing (.write (BitVec.ofNat 11 (4 * i)) v))) fun t =>
      t.blk[i] = v ∧ (∀ (j : Nat) (_ : j < 128), j ≠ i → t.blk[j] = s.blk[j]) ∧
      t = { s with blk := t.blk, rsp := writeDone }

/-- R54: word k of PLN[p] reads and is written at 0x200 + 16*p + 4*k: bit j of the bus word is bit 32*k + j of the
plane; the other 96 bits, the other planes and all other state keep their values. -/
def Obligations.PlaneWordsReadAndWriteInQuarters : Prop :=
  ∀ (s : State) (p : Nat) (_ : p < 32) (k : Nat) (_ : k < 4) (v : Word),
    (Answers (step (s.issuing (.read (BitVec.ofNat 11 (0x200 + 16 * p + 4 * k))))) fun t =>
      ∃ r : Word, (∀ j, j < 32 → r.getLsbD j = s.pln[p].getLsbD (32 * k + j)) ∧
        t = { s with rsp := some { rdata := r, err := false } }) ∧
    Answers (step (s.issuing (.write (BitVec.ofNat 11 (0x200 + 16 * p + 4 * k)) v))) fun t =>
      (∀ j, j < 128 → t.pln[p].getLsbD j =
        if 32 * k ≤ j ∧ j < 32 * k + 32 then v.getLsbD (j - 32 * k) else s.pln[p].getLsbD j) ∧
      (∀ (q : Nat) (_ : q < 32), q ≠ p → t.pln[q] = s.pln[q]) ∧
      t = { s with pln := t.pln, rsp := writeDone }

/-- From R25, R26, R27, R28, R30, R31, R55: what the six registers read (`StatusReadsFourFlags` says bit by bit what the
word of STATUS is), and what a write to OFFSET and WIDTH stores. -/
def Obligations.RegistersReadAndWriteAtTheirAddresses : Prop :=
  ∀ (s : State) (v : Word),
    step (s.issuing (.read 0x400#11)) = .next { s with rsp := some { rdata := 0#32, err := false } } ∧
    step (s.issuing (.read 0x404#11)) = .next { s with rsp := some { rdata := s.status.word, err := false } } ∧
    step (s.issuing (.read 0x408#11)) = .next { s with rsp := some { rdata := s.offset, err := false } } ∧
    step (s.issuing (.read 0x40C#11)) = .next { s with rsp := some { rdata := s.width.setWidth 32, err := false } } ∧
    step (s.issuing (.read 0x410#11)) = .next { s with rsp := some { rdata := s.maxv, err := false } } ∧
    step (s.issuing (.read 0x414#11)) = .next { s with rsp := some { rdata := 0x00802001#32, err := false } } ∧
    step (s.issuing (.write 0x408#11 v)) = .next { s with offset := v, rsp := writeDone } ∧
    step (s.issuing (.write 0x40C#11 v)) = .next { s with width := v.extractLsb' 0 6, rsp := writeDone }

/-- From R28, R32: a read of STATUS returns the flags in bits 0, 1, 2 and 8 and 0 in every other bit, and changes
nothing. -/
def Obligations.StatusReadsFourFlags : Prop :=
  ∀ s : State, Answers (step (s.issuing (.read 0x404#11))) fun t =>
    ∃ r : Word, t = { s with rsp := some { rdata := r, err := false } } ∧
      r.getLsbD 0 = s.status.errIllcmd ∧ r.getLsbD 1 = s.status.errWidth ∧ r.getLsbD 2 = s.status.errAcc ∧
      r.getLsbD 8 = s.status.trunc ∧
      ∀ n, n ≠ 0 → n ≠ 1 → n ≠ 2 → n ≠ 8 → r.getLsbD n = false

/-- R29: a write to STATUS leaves STATUS and not (w and 0x107); it sets no flag, 0x107 and 0xFFFFFFFF clear all four,
and nothing else changes. -/
def Obligations.StatusWriteClearsSelectedFlags : Prop :=
  ∀ (s : State) (w : Word), Answers (step (s.issuing (.write 0x404#11 w))) fun t =>
    t.status.word = s.status.word &&& ~~~(w &&& 0x00000107#32) ∧
    (w = 0x00000107#32 ∨ w = 0xFFFFFFFF#32 → t.status.word = 0#32) ∧
    t = { s with status := t.status, rsp := writeDone }

/-- R163: a misaligned or unmapped address, and a write to MAXV or IDR, raise AccessFault: ERR_ACC is set, the response
has `err = 1` and data 0, and nothing else changes; a read of CMD is no fault. -/
def Obligations.BadAccessRaisesAccessFault : Prop :=
  ∀ s : State,
    (∀ (a : Addr) (v : Word), a.toNat % 4 ≠ 0 ∨ (0x418 ≤ a.toNat ∧ a.toNat ≤ 0x7FC) →
      step (s.issuing (.read a)) =
        .next { s with status := { s.status with errAcc := true }, rsp := refusedTransaction } ∧
      step (s.issuing (.write a v)) =
        .next { s with status := { s.status with errAcc := true }, rsp := refusedTransaction }) ∧
    (∀ (a : Addr) (v : Word), a = 0x410#11 ∨ a = 0x414#11 → step (s.issuing (.write a v)) =
      .next { s with status := { s.status with errAcc := true }, rsp := refusedTransaction }) ∧
    step (s.issuing (.read 0x400#11)) = .next { s with rsp := writeDone }

/-- R166: one transaction raises at most one fault, decided in the order alignment and map, then the command word, then
the width; it answers an error exactly when one of these checks fails, and then nothing but that fault's bit and the
response has changed. -/
def Obligations.OneFaultInTheOrderOfTheChecks : Prop :=
  ∀ (s : State) (txn : Transaction), Answers (step (s.issuing txn)) fun u =>
    (txn.BadAccess →
      u = { s with status := { s.status with errAcc := true }, rsp := refusedTransaction }) ∧
    (∀ w, txn = .write 0x400#11 w →
      (∀ e, decode w = .error e →
        u = { s with status := { s.status with errIllcmd := true }, rsp := refusedTransaction }) ∧
      ∀ i d b, decode w = .ok i → PacksAt i d b s ∨ UnpacksAt i d b s → 32 < b →
        u = { s with status := { s.status with errWidth := true }, rsp := refusedTransaction }) ∧
    (u.rsp.map (·.err) = some true → txn.BadAccess ∨
      ∃ w, txn = .write 0x400#11 w ∧ ((∃ e, decode w = .error e) ∨
        ∃ i d b, decode w = .ok i ∧ (PacksAt i d b s ∨ UnpacksAt i d b s) ∧ 32 < b))

/-- R60: a read of a mapped, aligned address changes nothing, a faulting one sets ERR_ACC only; a write to any address
but CMD, made twice, leaves the state of making it once; a write to CMD need not (DELTA). -/
def Obligations.ReadsHaveNoEffectAndWritesAreIdempotent : Prop :=
  (∀ (s : State) (a : Addr), Answers (step (s.issuing (.read a))) fun t =>
    (peek s a = none → t = { s with status := { s.status with errAcc := true }, rsp := refusedTransaction }) ∧
    ∀ v, peek s a = some v → t = { s with rsp := some { rdata := v, err := false } }) ∧
  (∀ (s : State) (a : Addr) (v : Word), a ≠ 0x400#11 → Answers (step (s.issuing (.write a v))) fun t =>
    step (t.issuing (.write a v)) = .next t) ∧
  ∃ s : State, Answers (exec .delta s) fun t => Answers (exec .delta t) fun u => u.blk ≠ t.blk

/-- From R53, R54, R62: a word written to BLK, PLN or OFFSET reads back, WIDTH reads back its low 6 bits, and every other
address of the window reads as before. -/
def Obligations.WrittenWordReadsBackAndOthersKeep : Prop :=
  ∀ (s : State) (a : Addr) (v : Word),
    a.toNat % 4 = 0 → a.toNat < 0x400 ∨ a = 0x408#11 ∨ a = 0x40C#11 →
    Answers (step (s.issuing (.write a v))) fun t =>
      peek t a = some (if a = 0x40C#11 then v &&& 0x3F#32 else v) ∧
      ∀ a' : Addr, a' ≠ a → peek t a' = peek s a'

/-- From R33, R175: every piece of state is readable through the window: two states of the CORE that read the same at
every address are the same. -/
def Obligations.EveryPieceOfStateIsReadable : Prop :=
  ∀ s t : State, (∀ a : Addr, peek s a = peek t a) →
    s.blk = t.blk ∧ s.pln = t.pln ∧ s.offset = t.offset ∧ s.width = t.width ∧ s.maxv = t.maxv ∧ s.status = t.status

/-- From R57, R58: the serialisation of b planes has 16*b bytes; byte n is byte n mod 16 of plane n div 16, which is the
byte a host gets that reads the planes' bus words in ascending order and stores each little-endian. -/
def Obligations.SerialisationIsLittleEndianPlaneOrder : Prop :=
  ∀ (s : State) (b : Nat), b ≤ 32 →
    (serialise s.pln b).length = 16 * b ∧
    ∀ n, n < 16 * b →
      (serialise s.pln b)[n]? = (s.pln[n / 16]?).map (fun W => W.extractLsb' (8 * (n % 16)) 8) ∧
      (serialise s.pln b)[n]? =
        (peek s (BitVec.ofNat 11 (0x200 + 4 * (n / 4)))).map (fun w => w.extractLsb' (8 * (n % 4)) 8)

/-- From R89: the lines that load a register, a block or a plane leave exactly that in the CORE, with no error. That a
listing is placed in `inbox` and served one event a step is the model's choice (log entry 1). -/
def Obligations.LoadLinesLoadTheirOperand : Prop :=
  ∀ s : State, s.inbox = [] →
    (∀ V : Block, Sys2Proof.core.run 128 (s.issue [.ldblk V]) = .next { s with blk := V, rsp := writeDone }) ∧
    (∀ (p : Fin 32) (W : PlaneWord), Sys2Proof.core.run 4 (s.issue [.ldpln p W]) =
      .next { s with pln := s.pln.set p W, rsp := writeDone }) ∧
    (∀ v : Word, Sys2Proof.core.run 1 (s.issue [.setoff v]) = .next { s with offset := v, rsp := writeDone }) ∧
    (∀ v : Word, Sys2Proof.core.run 1 (s.issue [.setw v]) =
      .next { s with width := v.extractLsb' 0 6, rsp := writeDone }) ∧
    Sys2Proof.core.run 1 (s.issue [.clrst]) = .next { s with status := .clear, rsp := writeDone }

/-! ### Rules of the whole machine -/

/-- From R3, R51, R170: every step answers a next state, and a transaction gets exactly one response. The clauses on
`inbox` are the model's choice and not the rules': that a step serves its first event, and that with nothing issued it
changes nothing and gives no response (log entry 1), and that every event, a reset among them, leaves what the host has
still to issue (log entry 2). -/
def Obligations.EveryStepAnswers : Prop :=
  ∀ s : State, Answers (step s) fun t =>
    (s.inbox = [] → t = { s with rsp := none }) ∧
    (∀ e rest, s.inbox = e :: rest → t.inbox = rest ∧ (t.rsp.isSome = true ↔ ∃ txn, e = .request txn))

/-- R170: a set flag blocks nothing. Whatever STATUS holds, every transaction answers, leaves the same registers and
buffers, answers the same error bit, and, unless it reads STATUS, the same data. -/
def Obligations.SetFlagsBlockNothing : Prop :=
  ∀ (s : State) (st : Status) (txn : Transaction),
    Answers (step (s.issuing txn)) fun t => t.rsp.isSome = true ∧
      Answers (step (State.issuing { s with status := st } txn)) fun u =>
        u.blk = t.blk ∧ u.pln = t.pln ∧ u.offset = t.offset ∧ u.width = t.width ∧ u.maxv = t.maxv ∧
        u.inbox = t.inbox ∧ u.rsp.map (·.err) = t.rsp.map (·.err) ∧ (txn ≠ .read 0x404#11 → u.rsp = t.rsp)

/-- From R34, R101, R102, R113, R114, R128, R136, R151: a command's results depend on its named inputs alone: BLK (and
OFFSET in delta mode) for analyze and pack, planes 0 to b-1 (and OFFSET in delta mode) for unpack, BLK and OFFSET for
DELTA and UNDELTA, nothing for SRST. A pack's results are its planes and TRUNC, which also keeps what it was. NOP has no
results. -/
def Obligations.CommandsReadOnlyNamedInputs : Prop :=
  ∀ s s' : State,
    (s'.blk = s.blk → Answers (exec .analyze s) fun t => Answers (exec .analyze s') fun t' =>
      t'.maxv = t.maxv ∧ t'.width = t.width) ∧
    (s'.blk = s.blk → s'.offset = s.offset → Answers (exec .analyzeD s) fun t => Answers (exec .analyzeD s') fun t' =>
      t'.maxv = t.maxv ∧ t'.width = t.width) ∧
    (∀ i j d b, PacksAt i d b s → PacksAt j d b s' → b ≤ 32 → s'.blk = s.blk → (d = true → s'.offset = s.offset) →
      Answers (exec i s) fun t => Answers (exec j s') fun t' =>
        (∀ (p : Nat) (_ : p < 32), p < b → t'.pln[p] = t.pln[p]) ∧
        (s'.status.trunc = s.status.trunc → t'.status.trunc = t.status.trunc)) ∧
    (∀ i j d b, UnpacksAt i d b s → UnpacksAt j d b s' → b ≤ 32 →
      (∀ (p : Nat) (_ : p < 32), p < b → s'.pln[p] = s.pln[p]) → (d = true → s'.offset = s.offset) →
      Answers (exec i s) fun t => Answers (exec j s') fun t' => t'.blk = t.blk) ∧
    (s'.blk = s.blk → s'.offset = s.offset →
      Answers (exec .delta s) fun t => Answers (exec .delta s') fun t' => t'.blk = t.blk) ∧
    (s'.blk = s.blk → s'.offset = s.offset →
      Answers (exec .undelta s) fun t => Answers (exec .undelta s') fun t' => t'.blk = t.blk) ∧
    Answers (exec .srst s) fun t => Answers (exec .srst s') fun t' =>
      t'.blk = t.blk ∧ t'.pln = t.pln ∧ t'.offset = t.offset ∧ t'.width = t.width ∧ t'.maxv = t.maxv ∧
        t'.status = t.status

/-- From R21, R23, R25, R27, R28: the words of the window a command may change. NOP: none. ANALYZE, ANALYZE.D: WIDTH and
MAXV. The pack commands: planes 0 to b-1 and STATUS. The unpack commands: BLK, or STATUS when refused. DELTA, UNDELTA:
BLK. Every other address reads as before. -/
def Obligations.CommandsChangeOnlyTheirWords : Prop :=
  ∀ (s : State) (a : Addr),
    (Answers (exec .nop s) fun t => peek t a = peek s a) ∧
    (a ≠ 0x40C#11 → a ≠ 0x410#11 →
      (Answers (exec .analyze s) fun t => peek t a = peek s a) ∧
      Answers (exec .analyzeD s) fun t => peek t a = peek s a) ∧
    (∀ i d b, PacksAt i d b s → a ≠ 0x404#11 →
      ¬ (b ≤ 32 ∧ 0x200 ≤ a.toNat ∧ a.toNat < 0x200 + 16 * b) → Answers (exec i s) fun t => peek t a = peek s a) ∧
    (∀ i d b, UnpacksAt i d b s → 0x200 ≤ a.toNat → (a = 0x404#11 → b ≤ 32) →
      Answers (exec i s) fun t => peek t a = peek s a) ∧
    (0x200 ≤ a.toNat →
      (Answers (exec .delta s) fun t => peek t a = peek s a) ∧ Answers (exec .undelta s) fun t => peek t a = peek s a)

/-- From R25, R26, R27: only these events change OFFSET (a host write to it, SRST, reset), MAXV (ANALYZE, ANALYZE.D,
SRST, reset) and WIDTH (those of MAXV and a host write to it). -/
def Obligations.OnlyNamedEventsChangeRegisters : Prop :=
  ∀ (s t : State) (e : HostEvent) (rest : List HostEvent), s.inbox = e :: rest → step s = .next t →
    (t.offset ≠ s.offset → (∃ v, e = .request (.write 0x408#11 v)) ∨
      e = .request (.write 0x400#11 0x0000000F#32) ∨ ∃ ab, e = .reset ab) ∧
    (t.maxv ≠ s.maxv → e = .request (.write 0x400#11 0x00000001#32) ∨ e = .request (.write 0x400#11 0x00000011#32) ∨
      e = .request (.write 0x400#11 0x0000000F#32) ∨ ∃ ab, e = .reset ab) ∧
    (t.width ≠ s.width → (∃ v, e = .request (.write 0x40C#11 v)) ∨
      e = .request (.write 0x400#11 0x00000001#32) ∨ e = .request (.write 0x400#11 0x00000011#32) ∨
      e = .request (.write 0x400#11 0x0000000F#32) ∨ ∃ ab, e = .reset ab)

/-- From R28, R125, R169: a set flag stays set unless the host writes 1 to its bit of STATUS, SRST executes, or reset. -/
def Obligations.FlagsAreSticky : Prop :=
  ∀ (s t : State) (n : Nat), s.status.word.getLsbD n = true → step s = .next t → t.status.word.getLsbD n = false →
    ∃ e rest, s.inbox = e :: rest ∧
      ((∃ w : Word, e = .request (.write 0x404#11 w) ∧ w.getLsbD n = true) ∨
        e = .request (.write 0x400#11 0x0000000F#32) ∨ ∃ ab, e = .reset ab)

/-- From R160: after every step, from every state, an error response carries data 0 and is on record in a fault flag of
STATUS. -/
def Obligations.ErrorResponsesAreRecorded : Prop := ∀ s t : State, step s = .next t → ErrorIsRecorded t

/-- From R27: WIDTH = width32(MAXV) is kept by every step while the host issues no write to WIDTH. That what the host
issues stands in `inbox`, and stays there over a reset, is the model's choice (log entries 1 and 2). -/
def Obligations.WidthStaysTheWidthOfMaxv : Prop :=
  ∀ s t : State, WidthMatchesMaxv s → step s = .next t → WidthMatchesMaxv t

/-- From R27, R36: the reset state meets the invariant of `WidthStaysTheWidthOfMaxv`. That nothing is issued in it is the
model's choice (log entry 1). -/
def Obligations.ResetStateMeetsWidthMatch : Prop := WidthMatchesMaxv State.reset

/-- From R26, R27, R123, R137: along every run from a state that meets that invariant, WIDTH stays a legal width, so no
register form raises WidthRange: that takes a host write to WIDTH. What
the host issues over the run stands in `inbox`, which is the model's choice (log entries 1 and 2). -/
def Obligations.RegisterFormsNeverRefusedWithoutWidthWrite : Prop :=
  ∀ (n : Nat) (s t : State), WidthMatchesMaxv s → Sys2Proof.core.run n s = .next t →
    t.width.toNat ≤ 32 ∧
    ∀ i : Instr, i = .pack ∨ i = .packD ∨ i = .unpack ∨ i = .unpackD →
      Answers (exec i t) fun u => u.rsp = writeDone
end

