-- ==== Sys2Proof/Laws/Decode.lean ====
section
/-! SUPPORT. The fields of a command word: taking a field out of `commandWord` gives the field back, and a word whose
reserved bits are 0 is the `commandWord` of its fields (rule R81). -/

namespace Sys2Proof

/-- The bits of a command word, field by field (rule R81). -/
theorem commandWord_getLsbD (op : BitVec 4) (d i : Bool) (b : BitVec 6) (n : Nat) :
    (commandWord op d i b).getLsbD n =
      if n < 4 then op.getLsbD n
      else if n = 4 then d
      else if n = 5 then i
      else if n < 8 then false
      else b.getLsbD (n - 8) := by
  have h1 : ∀ (x : Bool) (m : Nat), (BitVec.ofBool x).getLsbD m = (decide (m = 0) && x) := by
    intro x m
    cases m <;> cases x <;> simp [BitVec.ofBool, BitVec.getLsbD_of_ge]
  unfold commandWord
  simp only [BitVec.getLsbD_append, h1]
  by_cases h4 : n < 4
  · simp [h4]
  by_cases e4 : n = 4
  · subst e4; simp
  by_cases e5 : n = 5
  · subst e5; simp
  by_cases h8 : n < 8
  · have : n = 6 ∨ n = 7 := by omega
    rcases this with rfl | rfl <;> simp
  · have a1 : ¬ n - 4 < 1 := by omega
    have a2 : ¬ n - 4 - 1 < 1 := by omega
    have a3 : ¬ n - 4 - 1 - 1 < 2 := by omega
    have a4 : n - 4 - 1 - 1 - 2 = n - 8 := by omega
    by_cases h14 : n - 8 < 6
    · simp [h4, e4, e5, h8, a1, a2, a3, a4, h14]
    · have hb : b.getLsbD (n - 8) = false := BitVec.getLsbD_of_ge _ _ (by omega)
      simp [h4, e4, e5, h8, a1, a2, a3, a4, h14, hb]

@[simp] theorem opField_commandWord (op : BitVec 4) (d i : Bool) (b : BitVec 6) :
    opField (commandWord op d i b) = op := by
  apply BitVec.eq_of_getLsbD_eq
  intro n hn
  simp [opField, commandWord_getLsbD, hn]

@[simp] theorem deltaField_commandWord (op : BitVec 4) (d i : Bool) (b : BitVec 6) :
    deltaField (commandWord op d i b) = d := by
  rw [deltaField, commandWord_getLsbD]
  rfl

@[simp] theorem immediateField_commandWord (op : BitVec 4) (d i : Bool) (b : BitVec 6) :
    immediateField (commandWord op d i b) = i := by
  rw [immediateField, commandWord_getLsbD]
  rfl

@[simp] theorem lowReserved_commandWord (op : BitVec 4) (d i : Bool) (b : BitVec 6) :
    lowReserved (commandWord op d i b) = 0#2 := by
  apply BitVec.eq_of_getLsbD_eq
  intro n hn
  have : n = 0 ∨ n = 1 := by omega
  rw [lowReserved, BitVec.getLsbD_extractLsb', commandWord_getLsbD]
  rcases this with rfl | rfl <;> rfl

@[simp] theorem bimmField_commandWord (op : BitVec 4) (d i : Bool) (b : BitVec 6) :
    bimmField (commandWord op d i b) = b := by
  apply BitVec.eq_of_getLsbD_eq
  intro n hn
  have h0 : ¬ 8 + n < 4 := by omega
  have h1 : ¬ 8 + n = 4 := by omega
  have h2 : ¬ 8 + n = 5 := by omega
  have h3 : ¬ 8 + n < 8 := by omega
  simp only [bimmField, BitVec.getLsbD_extractLsb', commandWord_getLsbD, h0, h1, h2, h3, hn, if_false, decide_true,
    Bool.true_and, Nat.add_sub_cancel_left]

@[simp] theorem highReserved_commandWord (op : BitVec 4) (d i : Bool) (b : BitVec 6) :
    highReserved (commandWord op d i b) = 0#18 := by
  apply BitVec.eq_of_getLsbD_eq
  intro n hn
  have h0 : ¬ 14 + n < 4 := by omega
  have h1 : ¬ 14 + n = 4 := by omega
  have h2 : ¬ 14 + n = 5 := by omega
  have h3 : ¬ 14 + n < 8 := by omega
  simp only [highReserved, BitVec.getLsbD_extractLsb', commandWord_getLsbD, h0, h1, h2, h3, if_false,
    BitVec.getLsbD_zero, Bool.and_eq_false_iff]
  exact .inr (BitVec.getLsbD_of_ge _ _ (by omega))

/-- A word with its reserved bits 0 is laid out from its fields (rule R81). -/
theorem eq_commandWord (w : Word) (hh : highReserved w = 0#18) (hl : lowReserved w = 0#2) :
    w = commandWord (opField w) (deltaField w) (immediateField w) (bimmField w) := by
  apply BitVec.eq_of_getLsbD_eq
  intro n hn
  rw [commandWord_getLsbD]
  split
  · rename_i h
    simp [opField, h]
  split
  · rename_i h
    simp [deltaField, h]
  split
  · rename_i h
    simp [immediateField, h]
  split
  · rename_i h4 h5 h6 h8
    have := congrArg (fun x : BitVec 2 => x.getLsbD (n - 6)) hl
    have e : 6 + (n - 6) = n := by omega
    have e2 : n - 6 < 2 := by omega
    simpa [lowReserved, BitVec.getLsbD_extractLsb', e, e2] using this
  · rename_i h4 h5 h6 h8
    by_cases h14 : n < 14
    · have e : 8 + (n - 8) = n := by omega
      have e2 : n - 8 < 6 := by omega
      simp [bimmField, e, e2]
    · have := congrArg (fun x : BitVec 18 => x.getLsbD (n - 14)) hh
      have e : 14 + (n - 14) = n := by omega
      have e2 : n - 14 < 18 := by omega
      rw [BitVec.getLsbD_of_ge (bimmField w) _ (by omega)]
      simpa [highReserved, BitVec.getLsbD_extractLsb', e, e2] using this

/-- Decoding a word laid out from fields looks only at those fields (rule R87). -/
theorem decode_commandWord (op : BitVec 4) (d i : Bool) (b : BitVec 6) :
    decode (commandWord op d i b) =
      if i = false ∧ b ≠ 0 then .error .immediateWithoutI else decodeFields op d i b.toNat := by
  simp [decode]

/-- An immediate that fits is the number its field holds. -/
theorem toNat_ofNat_immediate {b : Nat} (h : Instr.immediateFits b) : (BitVec.ofNat 6 b).toNat = b := by
  rw [BitVec.toNat_ofNat]
  exact Nat.mod_eq_of_lt h

end Sys2Proof
end

