-- ==== Sys2Proof/Laws/Operands.lean ====
section
/-! SUPPORT. One lemma for each pure function of Machine/Operands.lean that says what it computes, entry by entry and
bit by bit; later proofs cite these instead of unfolding the functions. -/

namespace Sys2Proof.Machine

/-- Bit k of the number is entry k of the list. -/
theorem bitsToNat_testBit (bs : List Bool) (k : Nat) : (bitsToNat bs).testBit k = bs.getD k false := by
  induction bs generalizing k with
  | nil => simp [bitsToNat]
  | cons b bs ih =>
    cases k with
    | zero => cases b <;> simp [bitsToNat, Nat.testBit_zero]
    | succ k =>
      have h : (b.toNat + 2 * bitsToNat bs) / 2 = bitsToNat bs := by
        cases b <;> (simp; try omega)
      rw [bitsToNat, Nat.testBit_succ, h, ih]
      simp

/-- A list of n bits makes a number below 2^n. -/
theorem bitsToNat_lt (bs : List Bool) : bitsToNat bs < 2 ^ bs.length := by
  induction bs with
  | nil => simp [bitsToNat]
  | cons b bs ih =>
    have hb : b.toNat < 2 := by cases b <;> decide
    rw [bitsToNat, List.length_cons, Nat.pow_succ]
    omega

theorem getD_toList {α : Type} {n : Nat} (V : Vector α n) (i : Nat) (d : α) (h : i < n) : V.toList.getD i d = V[i] := by
  simp [List.getD_eq_getElem?_getD, h]

/-- An entry of a tabulated register file. -/
theorem tabulate_getElem {α : Type} {n : Nat} (f : Fin n → α) (i : Nat) (h : i < n) : (tabulate f)[i] = f ⟨i, h⟩ := by
  simp [tabulate]

/-- Rule R120, bit by bit. -/
theorem plane_getLsbD (E : Block) (p i : Nat) (h : i < 128) : (plane E p).getLsbD i = E[i].getLsbD p := by
  rw [plane, BitVec.getLsbD_ofNat, bitsToNat_testBit]
  simp [h, List.getD_eq_getElem?_getD]

/-- Rule R122, plane by plane. -/
theorem packInto_getElem (E : Block) (b : Nat) (P : Planes) (p : Nat) (h : p < 32) :
    (packInto E b P)[p] = if p < b then plane E p else P[p] := by
  unfold packInto
  simp only [tabulate_getElem, Fin.getElem_fin]

/-- Rule R135, bit by bit. -/
theorem gather_getLsbD (P : Planes) (b i p : Nat) (hi : i < 128) (hp : p < 32) :
    ((gather P b)[i]).getLsbD p = (decide (p < b) && P[p].getLsbD i) := by
  unfold gather
  simp only [tabulate_getElem, BitVec.getLsbD_ofNat, bitsToNat_testBit, hp, decide_true, Bool.true_and]
  by_cases hb : p < b
  · simp [List.getD_eq_getElem?_getD, hb, hp]
  · simp [List.getD_eq_getElem?_getD, hb]

/-- Rule R110, lane 0. -/
theorem deltas_zero (V : Block) (off : Word) : (deltas V off)[0] = sub32 V[0] off := by
  unfold deltas
  simp only [tabulate_getElem, Fin.getElem_fin, if_true]

/-- Rule R110, the other lanes. -/
theorem deltas_succ (V : Block) (off : Word) (i : Nat) (h : i + 1 < 128) :
    (deltas V off)[i + 1] = sub32 V[i + 1] V[i] := by
  unfold deltas
  simp only [tabulate_getElem, Fin.getElem_fin, Nat.add_one_ne_zero, if_false, Nat.add_sub_cancel]

/-- The first sum. -/
theorem accumulate_zero (v : Word) (gs : List Word) (h : 0 < gs.length) :
    (accumulate v gs)[0]'((length_accumulate v gs).symm ▸ h) = add32 v gs[0] := by
  cases gs with
  | nil => cases h
  | cons g gs => rfl

/-- Each later sum adds the next entry to the sum before it. -/
theorem accumulate_succ (v : Word) (gs : List Word) (i : Nat) (h : i + 1 < gs.length) :
    (accumulate v gs)[i + 1]'((length_accumulate v gs).symm ▸ h) =
      add32 ((accumulate v gs)[i]'((length_accumulate v gs).symm ▸ (by omega))) gs[i + 1] := by
  induction gs generalizing v i with
  | nil => cases h
  | cons g gs ih =>
    cases i with
    | zero => exact accumulate_zero (add32 v g) gs (by simpa using h)
    | succ i => exact ih (add32 v g) i (by simpa using h)

/-- Rule R111, lane 0. -/
theorem runningSum_zero (G : Block) (off : Word) : (runningSum G off)[0] = add32 off G[0] := by
  unfold runningSum
  exact (accumulate_zero off G.toList (by simp)).trans (by simp)

/-- Rule R111, the other lanes. -/
theorem runningSum_succ (G : Block) (off : Word) (i : Nat) (h : i + 1 < 128) :
    (runningSum G off)[i + 1] = add32 (runningSum G off)[i] G[i + 1] := by
  unfold runningSum
  exact (accumulate_succ off G.toList i (by simpa using h)).trans (by simp)

theorem larger_toNat (a b : Word) : (larger a b).toNat = max a.toNat b.toNat := by
  unfold larger
  split <;> omega

theorem foldl_larger_toNat (l : List Word) (m : Word) :
    (l.foldl larger m).toNat = (l.map BitVec.toNat).foldl max m.toNat := by
  induction l generalizing m with
  | nil => rfl
  | cons v l ih => simp [ih, larger_toNat]

theorem foldl_larger_le_iff (l : List Word) (m : Word) (n : Nat) :
    (l.foldl larger m).toNat ≤ n ↔ m.toNat ≤ n ∧ ∀ v ∈ l, v.toNat ≤ n := by
  induction l generalizing m with
  | nil => simp
  | cons v l ih =>
    rw [List.foldl_cons, ih, larger_toNat]
    simp only [List.mem_cons, forall_eq_or_imp, max_le_iff, and_assoc]

theorem foldl_larger_mem (l : List Word) (m : Word) : l.foldl larger m = m ∨ l.foldl larger m ∈ l := by
  induction l generalizing m with
  | nil => simp
  | cons v l ih =>
    rw [List.foldl_cons]
    rcases ih (larger m v) with h | h
    · have hv : larger m v = m ∨ larger m v = v := by unfold larger; split <;> simp
      rcases hv with hv | hv <;> rw [hv] at h ⊢ <;> simp [h]
    · simp [h]

/-- The maximum is at most n exactly when every lane is (rule R6). -/
theorem umax_le_iff (E : Block) (n : Nat) : (umax E).toNat ≤ n ↔ ∀ i : Fin 128, E[i].toNat ≤ n := by
  rw [umax, foldl_larger_le_iff]
  constructor
  · intro h i
    exact h.2 _ (by simp)
  · intro h
    refine ⟨by simp, fun v hv => ?_⟩
    obtain ⟨i, hi, rfl⟩ := Vector.mem_iff_getElem.mp (Vector.mem_toList_iff.mp hv)
    exact h ⟨i, hi⟩

/-- No lane is above the maximum (rule R6). -/
theorem le_umax (E : Block) (i : Fin 128) : E[i].toNat ≤ (umax E).toNat := (umax_le_iff E _).mp (le_refl _) i

/-- Some lane holds the maximum (rule R6). -/
theorem exists_umax (E : Block) : ∃ i : Fin 128, E[i] = umax E := by
  rcases foldl_larger_mem E.toList 0#32 with h | h
  · have h0 := le_umax E 0
    refine ⟨0, ?_⟩
    rw [umax, h] at h0 ⊢
    exact BitVec.eq_of_toNat_eq (Nat.le_zero.mp h0)
  · obtain ⟨i, hi, he⟩ := Vector.mem_iff_getElem.mp (Vector.mem_toList_iff.mp h)
    exact ⟨⟨i, hi⟩, by rw [umax]; exact he⟩

/-- `width32 v` is the smallest sufficient width: a width b is at least it exactly when v fits in b bits (rule R7). -/
theorem width32_le_iff (v : Word) (b : Nat) : width32 v ≤ b ↔ v.toNat < 2 ^ b := by
  have hv : v.toNat < 2 ^ 32 := v.isLt
  unfold width32
  cases hf : (List.range (Config.bmax + 1)).find? fun b => decide (v.toNat < 2 ^ b) with
  | none =>
    rw [List.find?_eq_none] at hf
    exact absurd hv (by simpa using hf 32 (by simp [Config.bmax]))
  | some m =>
    rw [List.find?_range_eq_some] at hf
    obtain ⟨hm, -, hmin⟩ := hf
    simp only [decide_eq_true_eq, Option.getD_some] at hm ⊢
    constructor
    · intro h
      exact lt_of_lt_of_le hm (Nat.pow_le_pow_right (by decide) h)
    · intro h
      by_contra hc
      have := hmin b (by omega)
      simp [h] at this

/-- `width32` is in [0, 32] (rule R7). -/
theorem width32_le (v : Word) : width32 v ≤ 32 := (width32_le_iff v 32).mpr v.isLt

/-- The width of a block's maximum is at most b exactly when every lane fits in b bits (rules R8, R103). -/
theorem width32_umax_le_iff (E : Block) (b : Nat) : width32 (umax E) ≤ b ↔ ∀ i : Fin 128, E[i].toNat < 2 ^ b := by
  rw [width32_le_iff]
  have hb : 0 < 2 ^ b := Nat.two_pow_pos b
  have h := umax_le_iff E (2 ^ b - 1)
  constructor
  · intro hu i
    have := h.mp (by omega) i
    omega
  · intro hi
    have := h.mpr fun i => by have := hi i; omega
    omega

/-- WIDTH holds what ANALYZE stores in it. -/
theorem width32_ofNat_toNat (v : Word) : (BitVec.ofNat 6 (width32 v)).toNat = width32 v := by
  have := width32_le v
  rw [BitVec.toNat_ofNat]
  omega

end Sys2Proof.Machine
end

