-- ==== Sys2Proof/Laws/PerInstr.lean ====
section
/-! SUPPORT. What holds of every command as syntax, one lemma for each constructor of Instr. -/

/-- Family ReservedBitsClear: the encoding of a well-formed command has only zeros in CMD[31:14] and CMD[7:6], and its
BIMM is 0 unless I is set (rule R81). -/
def Sys2Proof.Laws.ReservedBitsClear.Statement (i : Sys2Proof.Instr) : Prop :=
  i.WellFormed → Sys2Proof.highReserved (Sys2Proof.encode i) = 0 ∧ Sys2Proof.lowReserved (Sys2Proof.encode i) = 0 ∧
    (Sys2Proof.immediateField (Sys2Proof.encode i) = false → Sys2Proof.bimmField (Sys2Proof.encode i) = 0)

namespace Sys2Proof.Laws.ReservedBitsClear

theorem nop : Statement .nop := fun _ => by simp [encode]
theorem analyze : Statement .analyze := fun _ => by simp [encode]
theorem analyzeD : Statement .analyzeD := fun _ => by simp [encode]
theorem pack : Statement .pack := fun _ => by simp [encode]
theorem packD : Statement .packD := fun _ => by simp [encode]
theorem packI (b : Nat) : Statement (.packI b) := fun _ => by simp [encode]
theorem packID (b : Nat) : Statement (.packID b) := fun _ => by simp [encode]
theorem unpack : Statement .unpack := fun _ => by simp [encode]
theorem unpackD : Statement .unpackD := fun _ => by simp [encode]
theorem unpackI (b : Nat) : Statement (.unpackI b) := fun _ => by simp [encode]
theorem unpackID (b : Nat) : Statement (.unpackID b) := fun _ => by simp [encode]
theorem delta : Statement .delta := fun _ => by simp [encode]
theorem undelta : Statement .undelta := fun _ => by simp [encode]
theorem srst : Statement .srst := fun _ => by simp [encode]

end Sys2Proof.Laws.ReservedBitsClear
end

