-- ==== Sys2Proof/Laws/State.lean ====
section
/-! SUPPORT. The fields of the state after each shared operation of Machine/Ops.lean, Machine/Flags.lean,
Machine/System.lean and Machine/Port.lean, so that no later proof unfolds a record update. -/

namespace Sys2Proof.Machine

section respond
variable (v : Word) (s : State)
@[simp] theorem respond_blk : (respond v s).blk = s.blk := rfl
@[simp] theorem respond_pln : (respond v s).pln = s.pln := rfl
@[simp] theorem respond_offset : (respond v s).offset = s.offset := rfl
@[simp] theorem respond_width : (respond v s).width = s.width := rfl
@[simp] theorem respond_maxv : (respond v s).maxv = s.maxv := rfl
@[simp] theorem respond_status : (respond v s).status = s.status := rfl
@[simp] theorem respond_inbox : (respond v s).inbox = s.inbox := rfl
@[simp] theorem respond_rsp : (respond v s).rsp = some ⟨v, false⟩ := rfl
end respond

section complete
variable (s : State)
@[simp] theorem complete_blk : (complete s).blk = s.blk := rfl
@[simp] theorem complete_pln : (complete s).pln = s.pln := rfl
@[simp] theorem complete_offset : (complete s).offset = s.offset := rfl
@[simp] theorem complete_width : (complete s).width = s.width := rfl
@[simp] theorem complete_maxv : (complete s).maxv = s.maxv := rfl
@[simp] theorem complete_status : (complete s).status = s.status := rfl
@[simp] theorem complete_inbox : (complete s).inbox = s.inbox := rfl
@[simp] theorem complete_rsp : (complete s).rsp = some ⟨0#32, false⟩ := rfl
end complete

section raise
variable (f : PortFault) (s : State)
@[simp] theorem raise_blk : (raise f s).blk = s.blk := rfl
@[simp] theorem raise_pln : (raise f s).pln = s.pln := rfl
@[simp] theorem raise_offset : (raise f s).offset = s.offset := rfl
@[simp] theorem raise_width : (raise f s).width = s.width := rfl
@[simp] theorem raise_maxv : (raise f s).maxv = s.maxv := rfl
@[simp] theorem raise_status : (raise f s).status = s.status.setFault f := rfl
@[simp] theorem raise_inbox : (raise f s).inbox = s.inbox := rfl
@[simp] theorem raise_rsp : (raise f s).rsp = some ⟨0#32, true⟩ := rfl
end raise

section cleared
variable (s : State)
@[simp] theorem cleared_blk : (cleared s).blk = Vector.replicate 128 0#32 := rfl
@[simp] theorem cleared_pln : (cleared s).pln = Vector.replicate 32 0#128 := rfl
@[simp] theorem cleared_offset : (cleared s).offset = 0#32 := rfl
@[simp] theorem cleared_width : (cleared s).width = 0#6 := rfl
@[simp] theorem cleared_maxv : (cleared s).maxv = 0#32 := rfl
@[simp] theorem cleared_status : (cleared s).status = Status.clear := rfl
@[simp] theorem cleared_inbox : (cleared s).inbox = s.inbox := rfl
@[simp] theorem cleared_rsp : (cleared s).rsp = none := rfl
end cleared

section analyzeBlock
variable (E : Block) (s : State)
@[simp] theorem analyzeBlock_blk : (analyzeBlock E s).blk = s.blk := rfl
@[simp] theorem analyzeBlock_pln : (analyzeBlock E s).pln = s.pln := rfl
@[simp] theorem analyzeBlock_offset : (analyzeBlock E s).offset = s.offset := rfl
@[simp] theorem analyzeBlock_width : (analyzeBlock E s).width = BitVec.ofNat 6 (width32 (umax E)) := rfl
@[simp] theorem analyzeBlock_maxv : (analyzeBlock E s).maxv = umax E := rfl
@[simp] theorem analyzeBlock_status : (analyzeBlock E s).status = s.status := rfl
@[simp] theorem analyzeBlock_inbox : (analyzeBlock E s).inbox = s.inbox := rfl
@[simp] theorem analyzeBlock_rsp : (analyzeBlock E s).rsp = some ⟨0#32, false⟩ := rfl
end analyzeBlock

section idle
variable (s : State)
@[simp] theorem idle_blk : (idle s).blk = s.blk := rfl
@[simp] theorem idle_pln : (idle s).pln = s.pln := rfl
@[simp] theorem idle_offset : (idle s).offset = s.offset := rfl
@[simp] theorem idle_width : (idle s).width = s.width := rfl
@[simp] theorem idle_maxv : (idle s).maxv = s.maxv := rfl
@[simp] theorem idle_status : (idle s).status = s.status := rfl
@[simp] theorem idle_inbox : (idle s).inbox = s.inbox := rfl
@[simp] theorem idle_rsp : (idle s).rsp = none := rfl
end idle

section status
variable (f : PortFault) (w : Word) (b : Bool) (st : Status)
@[simp] theorem setFault_recorded : (st.setFault f).recorded f = true := by cases f <;> rfl
@[simp] theorem setFault_trunc : (st.setFault f).trunc = st.trunc := by cases f <;> rfl
@[simp] theorem noteTruncation_recorded : (st.noteTruncation b).recorded f = st.recorded f := by cases f <;> rfl
@[simp] theorem noteTruncation_trunc : (st.noteTruncation b).trunc = (st.trunc || b) := rfl
@[simp] theorem clear_recorded : Status.clear.recorded f = false := by cases f <;> rfl
@[simp] theorem writeOneToClear_recorded :
    (st.writeOneToClear w).recorded f = (st.recorded f && !w.getLsbD f.code) := by cases f <;> rfl
@[simp] theorem writeOneToClear_trunc : (st.writeOneToClear w).trunc = (st.trunc && !w.getLsbD truncBit) := rfl

/-- Taking one fault sets no other fault's bit. -/
theorem setFault_recorded_other {f g : PortFault} (h : g ≠ f) : (st.setFault f).recorded g = st.recorded g := by
  cases f <;> cases g <;> first | rfl | exact absurd rfl h
end status

end Sys2Proof.Machine
end

