-- ==== Sys2Proof/Laws/Window.lean ====
section
/-! SUPPORT. What the address map, the cutting of plane words and the STATUS word do: one lemma each. -/

namespace Sys2Proof.Machine

/-- A location's address is a multiple of 4 (rule R59). -/
@[simp] theorem aligned_addr (l : Location) : aligned l.addr = true := by
  cases l with
  | blk i => simp [Location.addr, aligned, blkAddr, BitVec.toNat_ofNat]
  | pln p k => simp [Location.addr, aligned, plnAddr, BitVec.toNat_ofNat]; omega
  | cmd => rfl
  | status => rfl
  | offset => rfl
  | width => rfl
  | maxv => rfl
  | idr => rfl

/-- The map names each location at its own address (rule R55). -/
@[simp] theorem locate_addr (l : Location) : locate l.addr = some l := by
  cases l with
  | blk i =>
    have h : (blkAddr i.val).toNat = 4 * i.val := by simp [blkAddr, BitVec.toNat_ofNat]; omega
    have hlt : (blkAddr i.val).toNat < 0x200 := by omega
    simp only [locate, Location.addr, hlt, ↓reduceDIte, Option.some.injEq, Location.blk.injEq]
    exact Fin.ext (by simp [h])
  | pln p k =>
    have h : (plnAddr p.val k.val).toNat = 0x200 + 16 * p.val + 4 * k.val := by
      simp [plnAddr, BitVec.toNat_ofNat]; omega
    have h1 : ¬ (plnAddr p.val k.val).toNat < 0x200 := by omega
    have h2 : (plnAddr p.val k.val).toNat < 0x400 := by omega
    simp only [locate, Location.addr, h1, h2, ↓reduceDIte, Option.some.injEq, Location.pln.injEq]
    exact ⟨Fin.ext (by simp only [h]; omega), Fin.ext (by simp only [h]; omega)⟩
  | cmd => rfl
  | status => rfl
  | offset => rfl
  | width => rfl
  | maxv => rfl
  | idr => rfl

/-- The map is the fixed one of rule R55: an aligned address names a location exactly when it is its address. -/
theorem locate_eq_some_iff (a : Addr) (h : aligned a = true) (l : Location) : locate a = some l ↔ a = l.addr := by
  constructor
  · intro hl
    have ha : a.toNat % 4 = 0 := by simpa [aligned] using h
    unfold locate at hl
    split at hl
    · obtain rfl := Option.some.inj hl
      apply BitVec.eq_of_toNat_eq
      simp [Location.addr, blkAddr, BitVec.toNat_ofNat]; omega
    split at hl
    · obtain rfl := Option.some.inj hl
      apply BitVec.eq_of_toNat_eq
      simp [Location.addr, plnAddr, BitVec.toNat_ofNat]; omega
    repeat' split at hl
    all_goals cases hl <;> assumption
  · rintro rfl
    exact locate_addr l

/-- Two locations with one address are one location. -/
theorem addr_injective {l m : Location} (h : l.addr = m.addr) : l = m := by
  have := locate_addr l
  rw [h, locate_addr] at this
  exact (Option.some.inj this).symm

/-- The unmapped addresses are 0x418 and above (rule R55). -/
theorem locate_eq_none_iff (a : Addr) (h : aligned a = true) : locate a = none ↔ 0x418 ≤ a.toNat := by
  have ha : a.toNat % 4 = 0 := by simpa [aligned] using h
  constructor
  · intro hl
    by_contra hc
    have key : a.toNat < 0x400 ∨ a.toNat = 0x400 ∨ a.toNat = 0x404 ∨ a.toNat = 0x408 ∨ a.toNat = 0x40C ∨
        a.toNat = 0x410 ∨ a.toNat = 0x414 := by omega
    rcases key with hk | hk | hk | hk | hk | hk | hk
    · unfold locate at hl
      split at hl
      · cases hl
      · simp at hl
    all_goals
      have hx : a = BitVec.ofNat 11 a.toNat := by simp
      rw [hk] at hx
      rw [hx] at hl
      exact absurd hl (by decide)
  · intro hge
    cases hl : locate a with
    | none => rfl
    | some l =>
      have := (locate_eq_some_iff a h l).mp hl
      subst this
      cases l with
      | blk i => simp [Location.addr, blkAddr, BitVec.toNat_ofNat] at hge; omega
      | pln p k => simp [Location.addr, plnAddr, BitVec.toNat_ofNat] at hge; omega
      | cmd => exact absurd hge (by decide)
      | status => exact absurd hge (by decide)
      | offset => exact absurd hge (by decide)
      | width => exact absurd hge (by decide)
      | maxv => exact absurd hge (by decide)
      | idr => exact absurd hge (by decide)

/-- A read of a location's address returns what the location reads. -/
@[simp] theorem peek_addr (s : State) (l : Location) : peek s l.addr = some (readLocation s l) := by simp [peek]

/-- An address reads exactly what its location reads, and nothing else is readable (rules R55, R163). -/
theorem peek_eq_some_iff (s : State) (a : Addr) (v : Word) :
    peek s a = some v ↔ ∃ l : Location, a = l.addr ∧ readLocation s l = v := by
  constructor
  · intro h
    unfold peek at h
    split at h
    · rename_i ha
      obtain ⟨l, hl, rfl⟩ := Option.map_eq_some_iff.mp h
      exact ⟨l, (locate_eq_some_iff a ha l).mp hl, rfl⟩
    · cases h
  · rintro ⟨l, rfl, rfl⟩
    exact peek_addr s l

/-- A read raises AccessFault exactly when its address is misaligned or unmapped (rule R163). -/
theorem peek_eq_none_iff (s : State) (a : Addr) : peek s a = none ↔ a.toNat % 4 ≠ 0 ∨ 0x418 ≤ a.toNat := by
  by_cases h : aligned a = true
  · have ha : a.toNat % 4 = 0 := by simpa [aligned] using h
    simp [peek, h, locate_eq_none_iff a h, ha]
  · have ha : a.toNat % 4 ≠ 0 := by simpa [aligned] using h
    simp [peek, h, ha]

/-- Two states that read the same at every location read the same at every address. -/
theorem peek_congr {s t : State} {a : Addr} (h : ∀ l : Location, a = l.addr → readLocation t l = readLocation s l) :
    peek t a = peek s a := by
  cases hs : peek s a with
  | some v =>
    obtain ⟨l, hl, rfl⟩ := (peek_eq_some_iff s a v).mp hs
    exact (peek_eq_some_iff t a _).mpr ⟨l, hl, h l hl⟩
  | none => exact (peek_eq_none_iff t a).mpr ((peek_eq_none_iff s a).mp hs)

/-- Bit j of word k of a plane is bit 32*k + j of the plane (rule R54). -/
theorem planeWordAt_getLsbD (W : PlaneWord) (k j : Nat) (h : j < 32) :
    (planeWordAt W k).getLsbD j = W.getLsbD (32 * k + j) := by
  simp [planeWordAt, h]

/-- A write of word k replaces the 32 bits from 32*k on and keeps the other 96 (rule R54). -/
theorem withPlaneWord_getLsbD (W : PlaneWord) (k j : Nat) (v : Word) (hj : j < 128) :
    (withPlaneWord W k v).getLsbD j =
      if 32 * k ≤ j ∧ j < 32 * k + 32 then v.getLsbD (j - 32 * k) else W.getLsbD j := by
  have hones : ∀ n, (0xFFFFFFFF#32).getLsbD n = decide (n < 32) := by
    intro n
    by_cases hn : n < 32
    · have : ∀ m : Fin 32, (0xFFFFFFFF#32).getLsbD m.val = true := by decide
      simpa [hn] using this ⟨n, hn⟩
    · simp [hn, BitVec.getLsbD_of_ge _ _ (Nat.le_of_not_lt hn)]
  simp only [withPlaneWord, BitVec.getLsbD_or, BitVec.getLsbD_and, BitVec.getLsbD_not, BitVec.getLsbD_shiftLeft,
    BitVec.getLsbD_setWidth, hones, hj, decide_true, Bool.true_and]
  by_cases h1 : j < 32 * k
  · have h2 : ¬ (32 * k ≤ j ∧ j < 32 * k + 32) := by omega
    simp [h1, h2]
  · by_cases h3 : j - 32 * k < 32
    · have h2 : 32 * k ≤ j ∧ j < 32 * k + 32 := by omega
      have h4 : j - 32 * k < 128 := by omega
      simp [h1, h2, h3, h4]
    · have h2 : ¬ (32 * k ≤ j ∧ j < 32 * k + 32) := by omega
      have h5 : v.getLsbD (j - 32 * k) = false := BitVec.getLsbD_of_ge _ _ (Nat.le_of_not_lt h3)
      simp [h1, h2, h3, h5]

/-- A plane word reads back at the word written. -/
theorem planeWordAt_withPlaneWord (W : PlaneWord) (k : Fin 4) (v : Word) :
    planeWordAt (withPlaneWord W k.val v) k.val = v := by
  apply BitVec.eq_of_getLsbD_eq
  intro j hj
  rw [planeWordAt_getLsbD _ _ _ hj, withPlaneWord_getLsbD _ _ _ _ (by omega), if_pos (by omega)]
  congr 1
  omega

/-- A plane keeps its other words. -/
theorem planeWordAt_withPlaneWord_of_ne (W : PlaneWord) {k m : Fin 4} (h : m ≠ k) (v : Word) :
    planeWordAt (withPlaneWord W k.val v) m.val = planeWordAt W m.val := by
  have hv : m.val ≠ k.val := fun e => h (Fin.ext e)
  apply BitVec.eq_of_getLsbD_eq
  intro j hj
  rw [planeWordAt_getLsbD _ _ _ hj, planeWordAt_getLsbD _ _ _ hj, withPlaneWord_getLsbD _ _ _ _ (by omega),
    if_neg (by omega)]

/-- The bits of STATUS (rules R28, R32). -/
theorem status_word_getLsbD (st : Status) (n : Nat) :
    st.word.getLsbD n =
      (decide (n = 0) && st.errIllcmd || decide (n = 1) && st.errWidth || decide (n = 2) && st.errAcc ||
        decide (n = 8) && st.trunc) := by
  by_cases hn : n < 32
  · obtain ⟨a, b, c, d⟩ := st
    have h : ∀ (a b c d : Bool) (n : Fin 32), (Status.word ⟨a, b, c, d⟩).getLsbD n.val =
        (decide (n.val = 0) && a || decide (n.val = 1) && b || decide (n.val = 2) && c || decide (n.val = 8) && d) := by
      decide +kernel
    exact h a b c d ⟨n, hn⟩
  · have h0 : n ≠ 0 := by omega
    have h1 : n ≠ 1 := by omega
    have h2 : n ≠ 2 := by omega
    have h8 : n ≠ 8 := by omega
    simp [BitVec.getLsbD_of_ge _ _ (Nat.le_of_not_lt hn), h0, h1, h2, h8]

end Sys2Proof.Machine
end

