-- ==== Sys2Proof/Laws/Port.lean ====
section
/-! SUPPORT. What a command, a transaction and a step can do, said once each: every later proof about all commands or
all transactions splits on these cases and unfolds nothing. -/

namespace Sys2Proof.Machine

/-- A pack command that is not refused (rule R128). -/
theorem packAt_of_le {b : Nat} (h : b ≤ 32) (d : Bool) (s : State) :
    packAt d b s = complete { s with
      pln := packInto (encodedBlock d s) b s.pln
      status := s.status.noteTruncation (decide (b < width32 (umax (encodedBlock d s)))) } :=
  if_neg (Nat.not_lt.mpr h)

/-- A pack command that is refused (rule R162). -/
theorem packAt_of_gt {b : Nat} (h : 32 < b) (d : Bool) (s : State) : packAt d b s = raise .widthRange s := if_pos h

/-- An unpack command that is not refused (rule R136). -/
theorem unpackAt_of_le {b : Nat} (h : b ≤ 32) (d : Bool) (s : State) :
    unpackAt d b s = complete { s with blk := decodedBlock d (gather s.pln b) s } := if_neg (Nat.not_lt.mpr h)

/-- An unpack command that is refused (rule R162). -/
theorem unpackAt_of_gt {b : Nat} (h : 32 < b) (d : Bool) (s : State) : unpackAt d b s = raise .widthRange s := if_pos h

/-- The four pack commands are one operation (rule R128). -/
theorem exec_of_packsAt {i : Instr} {d : Bool} {b : Nat} {s : State} (h : PacksAt i d b s) :
    exec i s = .next (packAt d b s) := by cases h <;> rfl

/-- The four unpack commands are one operation (rule R136). -/
theorem exec_of_unpacksAt {i : Instr} {d : Bool} {b : Nat} {s : State} (h : UnpacksAt i d b s) :
    exec i s = .next (unpackAt d b s) := by cases h <;> rfl

theorem exec_nop (s : State) : exec .nop s = .next (complete s) := rfl
theorem exec_srst (s : State) : exec .srst s = .next (complete (cleared s)) := rfl
theorem exec_analyze (s : State) : exec .analyze s = .next (analyzeBlock s.blk s) := rfl
theorem exec_analyzeD (s : State) : exec .analyzeD s = .next (analyzeBlock (deltas s.blk s.offset) s) := rfl
theorem exec_delta (s : State) : exec .delta s = .next (complete { s with blk := deltas s.blk s.offset }) := rfl
theorem exec_undelta (s : State) :
    exec .undelta s = .next (complete { s with blk := runningSum s.blk s.offset }) := rfl

/-- One command of a sequence, once its answer is known. -/
theorem execAll_cons_of_next {i : Instr} {s t : State} (h : exec i s = .next t) (is : List Instr) :
    execAll (i :: is) s = execAll is t := by simp [execAll, h]

/-- A sequence of commands that has no more commands. -/
@[simp] theorem execAll_nil (s : State) : execAll [] s = .next s := rfl

/-- An outcome known to be a next state answers a property exactly when that state has it. -/
theorem answers_of_eq {o : Host.Outcome State Fault Refusal} {t : State} {P : State → Prop} (h : o = .next t)
    (hP : P t) : Answers o P := ⟨t, h, hP⟩

/-- Everything a command can do: it always answers a next state, which is one of eight. -/
theorem exec_cases (i : Instr) (s : State) :
    (i = .nop ∧ exec i s = .next (complete s)) ∨
    (i = .srst ∧ exec i s = .next (complete (cleared s))) ∨
    (i = .analyze ∧ exec i s = .next (analyzeBlock s.blk s)) ∨
    (i = .analyzeD ∧ exec i s = .next (analyzeBlock (deltas s.blk s.offset) s)) ∨
    (i = .delta ∧ exec i s = .next (complete { s with blk := deltas s.blk s.offset })) ∨
    (i = .undelta ∧ exec i s = .next (complete { s with blk := runningSum s.blk s.offset })) ∨
    (∃ d b, PacksAt i d b s ∧ exec i s = .next (packAt d b s)) ∨
    (∃ d b, UnpacksAt i d b s ∧ exec i s = .next (unpackAt d b s)) := by
  cases i with
  | nop => exact .inl ⟨rfl, rfl⟩
  | srst => exact .inr (.inl ⟨rfl, rfl⟩)
  | analyze => exact .inr (.inr (.inl ⟨rfl, rfl⟩))
  | analyzeD => exact .inr (.inr (.inr (.inl ⟨rfl, rfl⟩)))
  | delta => exact .inr (.inr (.inr (.inr (.inl ⟨rfl, rfl⟩))))
  | undelta => exact .inr (.inr (.inr (.inr (.inr (.inl ⟨rfl, rfl⟩)))))
  | pack => exact .inr (.inr (.inr (.inr (.inr (.inr (.inl ⟨_, _, .pack s, rfl⟩))))))
  | packD => exact .inr (.inr (.inr (.inr (.inr (.inr (.inl ⟨_, _, .packD s, rfl⟩))))))
  | packI b => exact .inr (.inr (.inr (.inr (.inr (.inr (.inl ⟨_, _, .packI b s, rfl⟩))))))
  | packID b => exact .inr (.inr (.inr (.inr (.inr (.inr (.inl ⟨_, _, .packID b s, rfl⟩))))))
  | unpack => exact .inr (.inr (.inr (.inr (.inr (.inr (.inr ⟨_, _, .unpack s, rfl⟩))))))
  | unpackD => exact .inr (.inr (.inr (.inr (.inr (.inr (.inr ⟨_, _, .unpackD s, rfl⟩))))))
  | unpackI b => exact .inr (.inr (.inr (.inr (.inr (.inr (.inr ⟨_, _, .unpackI b s, rfl⟩))))))
  | unpackID b => exact .inr (.inr (.inr (.inr (.inr (.inr (.inr ⟨_, _, .unpackID b s, rfl⟩))))))

/-- A pack command never touches what the host has issued. -/
@[simp] theorem packAt_inbox (d : Bool) (b : Nat) (s : State) : (packAt d b s).inbox = s.inbox := by
  unfold packAt
  split <;> simp

/-- An unpack command never touches what the host has issued. -/
@[simp] theorem unpackAt_inbox (d : Bool) (b : Nat) (s : State) : (unpackAt d b s).inbox = s.inbox := by
  unfold unpackAt
  split <;> simp

/-- No command touches what the host has issued. -/
theorem exec_inbox {i : Instr} {s t : State} (h : exec i s = .next t) : t.inbox = s.inbox := by
  rcases exec_cases i s with
    ⟨-, e⟩ | ⟨-, e⟩ | ⟨-, e⟩ | ⟨-, e⟩ | ⟨-, e⟩ | ⟨-, e⟩ | ⟨d, b, -, e⟩ | ⟨d, b, -, e⟩ <;>
    (rw [e, Host.Outcome.next.injEq] at h; subst h; simp)

/-- A write to CMD of a word that encodes a command performs the command. -/
theorem writeCmd_of_ok {w : Word} {i : Instr} (h : decode w = .ok i) (s : State) : writeCmd w s = exec i s := by
  simp [writeCmd, h]

/-- A write to CMD of any other word raises IllegalCommand (rule R161). -/
theorem writeCmd_of_error {w : Word} {e : IllegalWord} (h : decode w = .error e) (s : State) :
    writeCmd w s = .next (raise .illegalCommand s) := by simp [writeCmd, h]

/-- A write to a location's address is a write to the location. -/
@[simp] theorem busWrite_addr (l : Location) (v : Word) (s : State) :
    busWrite l.addr v s = writeLocation l v s := by simp [busWrite]

/-- A write to a misaligned or unmapped address raises AccessFault (rule R163). -/
theorem busWrite_of_bad {a : Addr} (h : a.toNat % 4 ≠ 0 ∨ 0x418 ≤ a.toNat) (v : Word) (s : State) :
    busWrite a v s = .next (raise .accessFault s) := by
  by_cases ha : aligned a = true
  · have hm : a.toNat % 4 = 0 := by simpa [aligned] using ha
    have hl := (locate_eq_none_iff a ha).mpr (h.resolve_left (absurd hm))
    simp [busWrite, ha, hl]
  · simp [busWrite, ha]

/-- Everything a write can be: at a location's address, or refused. -/
theorem busWrite_cases (a : Addr) (v : Word) (s : State) :
    (∃ l : Location, a = l.addr ∧ busWrite a v s = writeLocation l v s) ∨
    ((a.toNat % 4 ≠ 0 ∨ 0x418 ≤ a.toNat) ∧ busWrite a v s = .next (raise .accessFault s)) := by
  cases hp : peek s a with
  | some w =>
    obtain ⟨l, rfl, -⟩ := (peek_eq_some_iff s a w).mp hp
    exact .inl ⟨l, rfl, busWrite_addr l v s⟩
  | none =>
    have hb := (peek_eq_none_iff s a).mp hp
    exact .inr ⟨hb, busWrite_of_bad hb v s⟩

/-- Everything a read can do: respond with the location's word, or raise AccessFault. -/
theorem busRead_cases (a : Addr) (s : State) :
    (∃ l : Location, a = l.addr ∧ busRead a s = respond (readLocation s l) s) ∨
    ((a.toNat % 4 ≠ 0 ∨ 0x418 ≤ a.toNat) ∧ busRead a s = raise .accessFault s) := by
  cases hp : peek s a with
  | some w =>
    obtain ⟨l, rfl, rfl⟩ := (peek_eq_some_iff s a w).mp hp
    exact .inl ⟨l, rfl, by simp [busRead]⟩
  | none => exact .inr ⟨(peek_eq_none_iff s a).mp hp, by simp [busRead, hp]⟩

/-- A step with nothing issued. -/
theorem step_idle {s : State} (h : s.inbox = []) : step s = .next (idle s) := by simp [step, h]

/-- A step serves the first event the host has issued (rule R62). -/
theorem step_serve {s : State} {e : HostEvent} {rest : List HostEvent} (h : s.inbox = e :: rest) :
    step s = serve e { s with inbox := rest } := by simp [step, h]

/-- The induction over a run, once: what every step keeps holds of every state a run reaches. -/
theorem run_induction {P : State → Prop} (hstep : ∀ s t, P s → step s = .next t → P t) :
    ∀ (n : Nat) {s t : State}, P s → Sys2Proof.core.run n s = .next t → P t
  | 0, s, t, hs, h => by
    obtain rfl := Host.Outcome.next.inj h
    exact hs
  | n + 1, s, t, hs, h => by
    cases hx : step s with
    | next u =>
      have hr : Sys2Proof.core.run (n + 1) s = Sys2Proof.core.run n u := by
        simp only [Host.Core.run.eq_def Sys2Proof.core (n + 1) s]
        have : Sys2Proof.core.step s = .next u := hx
        simp only [this]
      exact run_induction hstep n (hstep s u hs hx) (hr ▸ h)
    | fault r => exact nomatch r
    | refused r =>
      have hr : Sys2Proof.core.run (n + 1) s = .refused r := by
        simp only [Host.Core.run.eq_def Sys2Proof.core (n + 1) s]
        have : Sys2Proof.core.step s = .refused r := hx
        simp only [this]
      exact nomatch hr.symm.trans h

end Sys2Proof.Machine
end

