-- ==== Sys2Proof/Tests/Slice0.lean ====
section
/-! SUPPORT. Tests of the model. Every expected value is transcribed from spec/95_test_vectors.md (the vector's name
stands in the docstring) or from the rule named there. After them, for each obligation with hypotheses, a witness: a
state and operands that meet them, clause by clause at the ends of the ranges. -/

namespace Sys2Proof.Machine

-- One test after the other: checked side by side, each waiting test would hold a thread's stack.
set_option Elab.async false

/-! ### Small states -/

/-- The outcome is a next state that passes the check. -/
def passes (o : Host.Outcome State Fault Refusal) (check : State → Bool) : Bool :=
  match o with
  | .next t => check t
  | .fault _ => false
  | .refused _ => false

/-- A block given by a formula in the lane index. -/
def blockOf (f : Nat → Nat) : Block := tabulate fun i => BitVec.ofNat 32 (f i.val)

/-- The block follows the formula, looked at in lanes at both ends and at the word boundaries. -/
def agrees (B : Block) (f : Nat → Nat) : Bool :=
  ([0, 1, 2, 3, 31, 32, 127] : List (Fin 128)).all fun i => B[i] == BitVec.ofNat 32 (f i.val)

/-- A plane given by its four bus words, the lowest first (the notation of 95_test_vectors.md). -/
def planeOf (w0 w1 w2 w3 : Word) : PlaneWord := w3 ++ w2 ++ w1 ++ w0

/-- The reset state with a block and an offset loaded. -/
def loaded (f : Nat → Nat) (off : Nat) : State :=
  { State.reset with blk := blockOf f, offset := BitVec.ofNat 32 off }

/-- The reset state with planes from 0 on, a width and an offset loaded. -/
def holding (planes : List PlaneWord) (width off : Nat) : State :=
  { State.reset with
    pln := tabulate fun p => planes.getD p.val 0#128, width := BitVec.ofNat 6 width, offset := BitVec.ofNat 32 off }

/-- All lanes 1. -/
def ones : PlaneWord := planeOf 0xFFFFFFFF#32 0xFFFFFFFF#32 0xFFFFFFFF#32 0xFFFFFFFF#32

/-- The delta plane of a ramp: every lane but lane 0. -/
def allButLaneZero : PlaneWord := planeOf 0xFFFFFFFE#32 0xFFFFFFFF#32 0xFFFFFFFF#32 0xFFFFFFFF#32

/-- The seven planes of V-PK1. -/
def rampPlanes : List PlaneWord :=
  [planeOf 0xAAAAAAAA#32 0xAAAAAAAA#32 0xAAAAAAAA#32 0xAAAAAAAA#32,
    planeOf 0xCCCCCCCC#32 0xCCCCCCCC#32 0xCCCCCCCC#32 0xCCCCCCCC#32,
    planeOf 0xF0F0F0F0#32 0xF0F0F0F0#32 0xF0F0F0F0#32 0xF0F0F0F0#32,
    planeOf 0xFF00FF00#32 0xFF00FF00#32 0xFF00FF00#32 0xFF00FF00#32,
    planeOf 0xFFFF0000#32 0xFFFF0000#32 0xFFFF0000#32 0xFFFF0000#32,
    planeOf 0x00000000#32 0xFFFFFFFF#32 0x00000000#32 0xFFFFFFFF#32,
    planeOf 0x00000000#32 0x00000000#32 0xFFFFFFFF#32 0xFFFFFFFF#32]

/-- The three planes of V-PK3. -/
def truncatedPlanes : List PlaneWord :=
  [planeOf 0xAAAAAAAA#32 0xAAAAAAAA#32 0xAAAAAAAA#32 0xAAAAAAAA#32,
    planeOf 0xCCCCCCCC#32 0xCCCCCCCC#32 0xCCCCCCCC#32 0xCCCCCCCC#32,
    planeOf 0x5A5A5A5A#32 0x5A5A5A5A#32 0x5A5A5A5A#32 0x5A5A5A5A#32]

/-- The block of V-PK8: 100, 103, 110, 111, then 111 to the end. -/
def steps : Nat → Nat
  | 0 => 100
  | 1 => 103
  | 2 => 110
  | _ => 111

/-- STATUS with all four flags set (0x107). -/
def allFlags : Status := { errIllcmd := true, errWidth := true, errAcc := true, trunc := true }

/-! ### WellFormed refuses an immediate that does not fit six bits (rules R81, R88) -/

theorem test_wellFormed_refuses_packI_64 : ¬ (Instr.packI 64).WellFormed := by decide
theorem test_wellFormed_refuses_packID_64 : ¬ (Instr.packID 64).WellFormed := by decide
theorem test_wellFormed_refuses_unpackI_64 : ¬ (Instr.unpackI 64).WellFormed := by decide
theorem test_wellFormed_refuses_unpackID_64 : ¬ (Instr.unpackID 64).WellFormed := by decide
theorem test_wellFormed_takes_63 : (Instr.packI 63).WellFormed ∧ (Instr.unpackID 63).WellFormed := by decide

/-! ### Decoding. The words are written field by field from rule R81: 18 zeros, BIMM, 2 zeros, I, D, OP -/

theorem test_decode_nop : decode 0b000000000000000000_000000_00_0_0_0000#32 = .ok .nop := by decide
theorem test_decode_analyze : decode 0b000000000000000000_000000_00_0_0_0001#32 = .ok .analyze := by decide
theorem test_decode_analyzeD : decode 0b000000000000000000_000000_00_0_1_0001#32 = .ok .analyzeD := by decide
theorem test_decode_pack : decode 0b000000000000000000_000000_00_0_0_0010#32 = .ok .pack := by decide
theorem test_decode_packD : decode 0b000000000000000000_000000_00_0_1_0010#32 = .ok .packD := by decide
theorem test_decode_packI : decode 0b000000000000000000_000101_00_1_0_0010#32 = .ok (.packI 5) := by decide
theorem test_decode_packID : decode 0b000000000000000000_111111_00_1_1_0010#32 = .ok (.packID 63) := by decide
theorem test_decode_unpack : decode 0b000000000000000000_000000_00_0_0_0011#32 = .ok .unpack := by decide
theorem test_decode_unpackD : decode 0b000000000000000000_000000_00_0_1_0011#32 = .ok .unpackD := by decide
theorem test_decode_unpackI : decode 0b000000000000000000_100000_00_1_0_0011#32 = .ok (.unpackI 32) := by decide
theorem test_decode_unpackID : decode 0b000000000000000000_001101_00_1_1_0011#32 = .ok (.unpackID 13) := by decide
theorem test_decode_delta : decode 0b000000000000000000_000000_00_0_0_0100#32 = .ok .delta := by decide
theorem test_decode_undelta : decode 0b000000000000000000_000000_00_0_0_0101#32 = .ok .undelta := by decide
theorem test_decode_srst : decode 0b000000000000000000_000000_00_0_0_1111#32 = .ok .srst := by decide

/-- 95_test_vectors.md 2.1, the immediate forms: each word as it is listed there. -/
theorem test_decode_listed_immediates :
    decode 0x00000022#32 = .ok (.packI 0) ∧ decode 0x00000322#32 = .ok (.packI 3) ∧
    decode 0x00002022#32 = .ok (.packI 32) ∧ decode 0x00002122#32 = .ok (.packI 33) ∧
    decode 0x00000132#32 = .ok (.packID 1) ∧ decode 0x00000232#32 = .ok (.packID 2) ∧
    decode 0x00000323#32 = .ok (.unpackI 3) ∧ decode 0x00000033#32 = .ok (.unpackID 0) ∧
    decode 0x00000233#32 = .ok (.unpackID 2) := by decide

/-- 95_test_vectors.md 2.1, the illegal words, each with the clause of rule R84 that makes it illegal. -/
theorem test_decode_listed_illegal :
    decode 0x00000010#32 = .error .modifierNotAllowed ∧ decode 0x00000021#32 = .error .immediateNotAllowed ∧
    decode 0x00000031#32 = .error .immediateNotAllowed ∧ decode 0x00000102#32 = .error .immediateWithoutI ∧
    decode 0x00000006#32 = .error .reservedOperation ∧ decode 0x0000000E#32 = .error .reservedOperation ∧
    decode 0x00000014#32 = .error .modifierNotAllowed ∧ decode 0x00000024#32 = .error .modifierNotAllowed ∧
    decode 0x0000001F#32 = .error .modifierNotAllowed ∧ decode 0x0000002F#32 = .error .modifierNotAllowed ∧
    decode 0x00000042#32 = .error .reservedBits ∧ decode 0x00000082#32 = .error .reservedBits ∧
    decode 0x00004002#32 = .error .reservedBits ∧ decode 0x00002162#32 = .error .reservedBits ∧
    decode 0x80000000#32 = .error .reservedBits ∧ decode 0xFFFFFFFF#32 = .error .reservedBits := by decide

/-- The words rule R83 writes out under its table. -/
theorem test_encode_listed :
    encode (.packI 5) = 0x00000522#32 ∧ encode (.packID 1) = 0x00000132#32 ∧
    encode (.unpackI 32) = 0x00002023#32 ∧ encode (.unpackID 0) = 0x00000033#32 := by decide

/-! ### One command each -/

/-- V-SY2. -/
theorem test_nop : exec .nop (loaded id 7) = .next { loaded id 7 with rsp := writeDone } := rfl

/-- V-SY1: all flags set, buffers written. -/
theorem test_srst : exec .srst { holding rampPlanes 40 9 with status := allFlags } =
    .next { State.reset with rsp := writeDone } := rfl

/-- V-AN2: BLK[i] = i. -/
theorem test_analyze_ramp :
    passes (exec .analyze (loaded id 0)) (fun t => t.maxv == 0x7F#32 && t.width == 7#6) = true := by decide +kernel

/-- V-AN6p: the ramp that wraps. -/
theorem test_analyze_wrapped_ramp :
    passes (exec .analyze (loaded (0xFFFFFFC0 + ·) 0)) (fun t => t.maxv == 0xFFFFFFFF#32 && t.width == 32#6) = true := by
  decide +kernel

/-- V-AN8: the first delta is 10 - 12, so it wraps. -/
theorem test_analyzeD_descent :
    passes (exec .analyzeD (loaded (fun i => if i = 0 then 10 else if i = 1 then 7 else 5 + i) 12))
      (fun t => t.maxv == 0xFFFFFFFE#32 && t.width == 32#6 && t.blk[0] == 10#32) = true := by decide +kernel

/-- V-AN13: BLK[i] = i * i, the largest delta is 253. -/
theorem test_analyzeD_squares :
    passes (exec .analyzeD (loaded (fun i => i * i) 0)) (fun t => t.maxv == 0xFD#32 && t.width == 8#6) = true := by
  decide +kernel

/-- V-PK1. -/
theorem test_pack_ramp :
    passes (exec .pack { loaded id 0 with width := 7#6 })
      (fun t => t.pln.toList.take 7 == rampPlanes && t.pln[7] == 0#128 && t.status == .clear) = true := by decide +kernel

/-- V-PK6: lane and word boundaries. -/
theorem test_pack_boundaries :
    passes (exec .pack
        { loaded (fun i => if i = 0 then 1 else if i = 31 then 2 else if i = 32 then 4 else if i = 127 then 0x80000000
          else 0) 0 with width := 32#6 })
      (fun t => t.pln[0] == planeOf 1#32 0#32 0#32 0#32 && t.pln[1] == planeOf 0x80000000#32 0#32 0#32 0#32 &&
        t.pln[2] == planeOf 0#32 1#32 0#32 0#32 && t.pln[3] == 0#128 &&
        t.pln[31] == planeOf 0#32 0#32 0#32 0x80000000#32) = true := by decide +kernel

/-- V-PK5. -/
theorem test_packD_ramp :
    passes (exec .packD { loaded (1000 + ·) 1000 with width := 1#6 })
      (fun t => t.pln[0] == allButLaneZero && t.pln[1] == 0#128 && agrees t.blk (1000 + ·) && t.status == .clear) =
      true := by decide +kernel

/-- V-PK3: truncation, and the planes beyond b kept. -/
theorem test_packI_truncates :
    passes (exec (.packI 3) (loaded (fun i => 5 * i % 16) 0))
      (fun t => t.pln.toList.take 3 == truncatedPlanes && t.pln[3] == 0#128 && t.status.word == 0x100#32 &&
        t.rsp == writeDone) = true := by decide +kernel

/-- V-PK2: a width above the true one clears planes 7 and 8, and leaves plane 9 alone. -/
theorem test_packI_wider :
    passes (exec (.packI 9) { loaded id 0 with pln := Vector.replicate 32 ones })
      (fun t => t.pln.toList.take 10 == rampPlanes ++ [0#128, 0#128, ones] && t.status == .clear) = true := by
  decide +kernel

/-- V-PK8. -/
theorem test_packID_truncates :
    passes (exec (.packID 2) (loaded steps 100))
      (fun t => t.pln[0] == planeOf 0xE#32 0#32 0#32 0#32 && t.pln[1] == planeOf 0x6#32 0#32 0#32 0#32 &&
        t.status.word == 0x100#32) = true := by decide +kernel

/-- V-FT3. -/
theorem test_packID_63_refused :
    passes (exec (.packID 63) (loaded steps 100))
      (fun t => t.status.word == 0x2#32 && t.pln[0] == 0#128 && t.pln[31] == 0#128 && t.rsp == refusedTransaction) = true := by
  decide +kernel

/-- V-UP1. -/
theorem test_unpack_three_planes :
    passes (exec .unpack (holding (rampPlanes.take 3) 3 0)) (fun t => agrees t.blk (· % 8)) = true := by
  decide +kernel

/-- V-FT2. -/
theorem test_unpack_width_40_refused :
    passes (exec .unpack (holding rampPlanes 40 0)) (fun t => t.status.word == 0x2#32 && agrees t.blk (fun _ => 0)) =
      true := by decide +kernel

/-- V-UP4. -/
theorem test_unpackD_ramp :
    passes (exec .unpackD (holding [allButLaneZero] 1 1000)) (fun t => agrees t.blk (1000 + ·)) = true := by
  decide +kernel

/-- V-UP9: a plain buffer unpacked in delta mode. -/
theorem test_unpackD_wrong_mode :
    passes (exec .unpackD (holding rampPlanes 7 0)) (fun t => agrees t.blk fun i => i * (i + 1) / 2) = true := by
  decide +kernel

/-- V-UP3. -/
theorem test_unpackI_after_truncation :
    passes (exec (.unpackI 3) (holding truncatedPlanes 0 0)) (fun t => agrees t.blk fun i => 5 * i % 16 % 8) =
      true := by decide +kernel

/-- V-UP10: lane 127 of plane 31. -/
theorem test_unpackI_lane_127 :
    passes (exec (.unpackI 32)
        { State.reset with pln := State.reset.pln.set 31 (planeOf 0#32 0#32 0#32 0x80000000#32) })
      (fun t => agrees t.blk fun i => if i = 127 then 0x80000000 else 0) = true := by decide +kernel

/-- V-UP5: every step of the running sum subtracts 1. -/
theorem test_unpackID_wraps :
    passes (exec (.unpackID 32) { State.reset with pln := Vector.replicate 32 ones, offset := 5#32 })
      (fun t => agrees t.blk fun i => 2 ^ 32 + 4 - i) = true := by decide +kernel

/-- V-UP6: the truncation of one delta carries into every later lane. -/
theorem test_unpackID_carries :
    passes (exec (.unpackID 2) (holding [planeOf 0xE#32 0#32 0#32 0#32, planeOf 0x6#32 0#32 0#32 0#32] 0 100))
      (fun t => agrees t.blk fun i => if i = 0 then 100 else if i = 1 then 103 else if i = 2 then 106 else 107) =
      true := by decide +kernel

/-- V-DL7: the update is simultaneous. -/
theorem test_delta_simultaneous :
    passes (exec .delta (loaded (fun i => if i = 0 then 5 else if i < 3 then 3 else 4) 6))
      (fun t => agrees t.blk fun i => if i = 0 then 0xFFFFFFFF else if i = 1 then 0xFFFFFFFE else if i = 3 then 1
        else 0) = true := by decide +kernel

/-- V-DL6. -/
theorem test_delta_zero_block :
    passes (exec .delta (loaded (fun _ => 0) 9)) (fun t => agrees t.blk fun i => if i = 0 then 0xFFFFFFF7 else 0) =
      true := by decide +kernel

/-- V-DL4: the first sum wraps to 0. -/
theorem test_undelta_wraps :
    passes (exec .undelta (loaded (fun _ => 1) 0xFFFFFFFF)) (fun t => agrees t.blk id) = true := by decide +kernel

/-- V-DL8. -/
theorem test_undelta_descends :
    passes (exec .undelta (loaded (fun _ => 0xFFFFFFFF) 0)) (fun t => agrees t.blk fun i => 2 ^ 32 - 1 - i) =
      true := by decide +kernel

/-! ### The host port -/

/-- V-MM1, V-MM2: IDR and CMD read. -/
theorem test_read_idr_and_cmd : peek State.reset 0x414#11 = some 0x00802001#32 ∧ peek State.reset 0x400#11 = some 0#32 := by
  decide

/-- V-MM3, V-MM5, V-MM9: misaligned and unmapped reads. -/
theorem test_bad_reads :
    peek State.reset 0x401#11 = none ∧ peek State.reset 0x418#11 = none ∧ peek State.reset 0x7FF#11 = none := by decide

/-- V-MM4: a misaligned write next to CMD runs no command. -/
theorem test_misaligned_command :
    passes (step (State.reset.issuing (.write 0x402#11 1#32)))
      (fun t => t.status.word == 0x4#32 && t.rsp == refusedTransaction) = true := by decide +kernel

/-- V-MM7, V-MM8: MAXV and IDR are read-only. -/
theorem test_read_only_registers :
    (passes (step (State.reset.issuing (.write 0x410#11 1#32))) (fun t => t.status.word == 0x4#32 && t.maxv == 0#32) &&
      passes (step (State.reset.issuing (.write 0x414#11 1#32))) (fun t => t.status.word == 0x4#32)) = true := by
  decide +kernel

/-- V-MM10: word 2 of plane 3. -/
theorem test_write_plane_word :
    passes (step (State.reset.issuing (.write 0x238#11 0xDEADBEEF#32)))
      (fun t => t.pln[3] == planeOf 0#32 0#32 0xDEADBEEF#32 0#32 && peek t 0x234#11 == some 0#32 &&
        peek t 0x238#11 == some 0xDEADBEEF#32 && peek t 0x23C#11 == some 0#32) = true := by decide +kernel

/-- V-MM11: WIDTH keeps six bits, and 33 is no fault. -/
theorem test_write_width :
    passes (step (State.reset.issuing (.write 0x40C#11 0xFFFFFFE1#32)))
      (fun t => t.width == 33#6 && peek t 0x40C#11 == some 0x21#32 && t.status == .clear) = true := by decide +kernel

/-- V-MM13: BLK[127] only. -/
theorem test_write_last_entry :
    passes (step (State.reset.issuing (.write 0x1FC#11 0x12345678#32)))
      (fun t => t.blk[127] == 0x12345678#32 && t.blk[126] == 0#32 && t.width == 0#6) = true := by decide +kernel

/-- V-FT1: an illegal word. -/
theorem test_illegal_command :
    passes (step (State.reset.issuing (.write 0x400#11 6#32)))
      (fun t => t.status.word == 0x1#32 && t.rsp == refusedTransaction) = true := by decide +kernel

/-- V-FT5, V-FT6, V-FT7, V-FT8: clearing flag by flag. -/
theorem test_clear_flags :
    (allFlags.writeOneToClear 0x1#32).word = 0x106#32 ∧
    ((allFlags.writeOneToClear 0x1#32).writeOneToClear 0xFFFFFEF8#32).word = 0x106#32 ∧
    ((allFlags.writeOneToClear 0x1#32).writeOneToClear 0x100#32).word = 0x6#32 ∧
    (((allFlags.writeOneToClear 0x1#32).writeOneToClear 0x100#32).writeOneToClear 0x6#32).word = 0#32 := by decide

/-- The serialised bytes of PLN[3] and PLN[5] of V-PK1. -/
theorem test_serialised_bytes :
    (serialise (holding rampPlanes 7 0).pln 7).take 64 |>.drop 48 |>.take 4 |> (· = [0x00#8, 0xFF#8, 0x00#8, 0xFF#8]) := by
  decide +kernel

/-- A `LDPLN` line loads its plane whole (rule R89). -/
theorem test_ldpln :
    passes (Sys2Proof.core.run 4 (State.reset.issue [.ldpln 31 allButLaneZero]))
      (fun t => t.pln[31] == allButLaneZero && t.pln[30] == 0#128 && t.inbox == [] && t.rsp == writeDone) = true := by
  decide +kernel

/-- Rule R88: the suffixes, decimal and hexadecimal operands, and the range. -/
theorem test_assemble :
    assemble "PACKI" (some ['5']) = some (.packI 5) ∧ assemble "UNPACKI.D" (some ['0', 'x', '2', '0']) = some (.unpackID 32) ∧
    assemble "PACKI" (some ['6', '4']) = none ∧ assemble "PACK" (some ['5']) = none ∧ assemble "PACKI" none = none ∧
    assemble "ANALYZE.D" none = some .analyzeD ∧ assemble "PACKI.D" (some ['0', 'x', '3', 'f']) = some (.packID 63) ∧
    assemble "pack" none = none := by decide

/-- The first step after reset runs the word placed for it. -/
theorem test_first_step : step (State.reset.withFetchWord 32 0x00000011) = exec .analyzeD State.reset := rfl

/-- A row's word decodes by the numbering of spec/opcode_table.json. -/
theorem test_decodeTableWord :
    decodeTableWord 32 0x00000733 = some (.unpackID 7) ∧ decodeTableWord 32 0x00000006 = none := by decide

/-! ### Witnesses: for each obligation with hypotheses, states and operands that meet them -/

/-- V-AN's one-lane block: 128 zeros but for lane 64. -/
def oneLane (v : Nat) : State := loaded (fun i => if i = 64 then v else 0) 0

/-- Words that `SrstGivesResetState`, `NopLeavesTheState`, `DeltaReplacesBlockSimultaneously` and
`UndeltaReplacesBlockByRunningSum` call illegal. -/
theorem witness_illegal_modifiers :
    ((0x0000001F#32).toNat % 16 = 0xF ∧ (0x0000001F#32 : Word) ≠ 0x0000000F#32) ∧
    ((0x80000000#32).toNat % 16 = 0x0 ∧ (0x80000000#32 : Word) ≠ 0x00000000#32) ∧
    ((0x00000014#32).toNat % 16 = 0x4 ∧ (0x00000014#32).getLsbD 4 = true) ∧
    ((0x00000024#32).toNat % 16 = 0x4 ∧ (0x00000024#32).getLsbD 5 = true) ∧
    ((0x00000015#32).toNat % 16 = 0x5 ∧ (0x00000015#32).getLsbD 4 = true) ∧
    ((0x00000025#32).toNat % 16 = 0x5 ∧ (0x00000025#32).getLsbD 5 = true) := by decide

theorem witness_WidthIsSmallestExactFit :
    (0xFFFFFFFF#32).toNat < 2 ^ 32 ∧ (0#32).toNat < 2 ^ 0 ∧ 0 < (1#32).toNat := by decide

theorem witness_WidthOfMaximumIsWidthOfOr : (127#32).toNat ≤ (128#32).toNat ∧ (5#32).toNat ≤ (5#32).toNat := by decide

/-- Widths 0, 31 and 32, and a block with another order of the same lanes. -/
theorem witness_AnalyzedWidthFitsAndIsMinimal :
    (∀ (i : Nat) (_ : i < 128), State.reset.blk[i] = 0#32) ∧
    (∃ (i : Nat) (_ : i < 128), 0x80000000 ≤ (oneLane 0x80000000).blk[i].toNat) ∧
    passes (exec .analyze (oneLane 0x7FFFFFFF)) (fun t => decide (0 < t.width.toNat) && t.width == 31#6) = true ∧
    (loaded id 0).blk.reverse.toList.Perm (loaded id 0).blk.toList := by
  refine ⟨fun i hi => by simp [State.reset], ⟨64, by decide, by decide +kernel⟩, by decide +kernel, ?_⟩
  rw [Vector.toList_reverse]
  exact List.reverse_perm _

theorem blockOf_ramp (off i : Nat) (hi : i < 128) : (blockOf (off + ·))[i] = BitVec.ofNat 32 off + BitVec.ofNat 32 i := by
  simp [blockOf, tabulate_getElem, BitVec.ofNat_add]

/-- Ramps from 0, from 1000, from the last offset that does not wrap and from the first that does. -/
theorem witness_DeltaModeAdvantageOnRamps :
    (∀ off (i : Nat) (_ : i < 128),
      (loaded (off + ·) off).blk[i] = (loaded (off + ·) off).offset + BitVec.ofNat 32 i) ∧
    (loaded (0 + ·) 0).offset = 0#32 ∧ (loaded (1000 + ·) 1000).offset = 1000#32 ∧
    (loaded (0xFFFFFF80 + ·) 0xFFFFFF80).offset.toNat + 127 < 2 ^ 32 ∧
    0xFFFFFF80 < (loaded (0xFFFFFF81 + ·) 0xFFFFFF81).offset.toNat :=
  ⟨fun off i hi => blockOf_ramp off i hi, by decide, by decide, by decide, by decide⟩

/-- A legal register width and the largest legal immediate. -/
theorem witness_DeltaFormsAreCompositions : (holding rampPlanes 32 0).width.toNat ≤ 32 ∧ (32 : Nat) ≤ 32 := by decide

/-- The four pack commands, at the widths 0, 32, 33 and 63, in both branches. -/
theorem witness_PackWritesBitPlanes :
    PacksAt .pack false 0 State.reset ∧ PacksAt .packD true 32 (holding [] 32 0) ∧
    PacksAt (.packI 33) false 33 State.reset ∧ PacksAt (.packID 63) true 63 State.reset ∧
    PacksAt .pack false 63 (holding [] 63 0) ∧ (0 : Nat) ≤ 32 ∧ (32 : Nat) ≤ 32 ∧ 32 < 33 :=
  ⟨.pack State.reset, .packD (holding [] 32 0), .packI 33 _, .packID 63 _, .pack (holding [] 63 0), by decide, by decide,
    by decide⟩

/-- The four unpack commands, at the widths 0, 32, 33 and 63. -/
theorem witness_UnpackRebuildsTheBlock :
    UnpacksAt .unpack false 0 State.reset ∧ UnpacksAt .unpackD true 32 (holding [] 32 0) ∧
    UnpacksAt (.unpackI 33) false 33 State.reset ∧ UnpacksAt (.unpackID 63) true 63 State.reset ∧
    UnpacksAt .unpack false 33 (holding [] 33 0) :=
  ⟨.unpack State.reset, .unpackD (holding [] 32 0), .unpackI 33 _, .unpackID 63 _, .unpack (holding [] 33 0)⟩

theorem witness_UnpackAtWidthZeroFillsTheBlock :
    UnpacksAt .unpack false 0 State.reset ∧ UnpacksAt .unpackD true 0 State.reset ∧
    UnpacksAt (.unpackI 0) false 0 State.reset ∧ UnpacksAt (.unpackID 0) true 0 State.reset :=
  ⟨.unpack State.reset, .unpackD State.reset, .unpackI 0 _, .unpackID 0 _⟩

theorem witness_WidthAbove32RaisesWidthRange :
    PacksAt .packD true 33 (holding [] 33 0) ∧ UnpacksAt .unpackD true 63 (holding [] 63 0) ∧ 32 < 33 :=
  ⟨.packD (holding [] 33 0), .unpackD (holding [] 63 0), by decide⟩

/-- At the true width 4, below it, and the plane that both packs of the third clause write. -/
theorem witness_PackIsLosslessOrReducesModulo :
    PacksAt (.packI 4) false 4 (loaded (5 * · % 16) 0) ∧
    exec (.packI 4) (loaded (5 * · % 16) 0) = .next (packAt false 4 (loaded (5 * · % 16) 0)) ∧
    width32 (umax (encodedBlock false (loaded (5 * · % 16) 0))) = 4 ∧
    width32 (umax (encodedBlock false (loaded (5 * · % 16 % 8) 0))) = 3 ∧
    (∀ l : Fin 128, (blockOf (5 * · % 16 % 8))[l].toNat = (encodedBlock false (loaded (5 * · % 16) 0))[l].toNat % 2 ^ 3) ∧
    ∀ l : Fin 128, (encodedBlock false (loaded (5 * · % 16 % 8) 0))[l].getLsbD 2 =
      (encodedBlock false (loaded (5 * · % 16) 0))[l].getLsbD 2 :=
  ⟨.packI 4 _, rfl, by decide +kernel, by decide +kernel, by decide +kernel, by decide +kernel⟩

/-- The true width itself in both modes, and a second CORE whose planes 0 to b-1 and OFFSET are restored while the
rest differs. -/
theorem witness_PackUnpackRoundTripIsExact :
    width32 (umax (loaded (5 * · % 16) 0).blk) ≤ 4 ∧
    width32 (umax (deltas (loaded (1000 + ·) 1000).blk (loaded (1000 + ·) 1000).offset)) ≤ 1 ∧
    PacksAt (.packID 1) true 1 (loaded (1000 + ·) 1000) ∧
    UnpacksAt .unpackD true 1 { holding [allButLaneZero, ones] 1 1000 with status := allFlags } ∧
    exec (.packID 1) (loaded (1000 + ·) 1000) = .next (packAt true 1 (loaded (1000 + ·) 1000)) ∧
    (∀ (p : Nat) (_ : p < 32), p < 1 →
      (holding [allButLaneZero, ones] 1 1000).pln[p] = (packAt true 1 (loaded (1000 + ·) 1000)).pln[p]) ∧
    (holding [allButLaneZero, ones] 1 1000).offset = (loaded (1000 + ·) 1000).offset := by
  refine ⟨by decide +kernel, by decide +kernel, .packID 1 _,
    .unpackD { holding [allButLaneZero, ones] 1 1000 with status := allFlags }, rfl, ?_, rfl⟩
  have h : (holding [allButLaneZero, ones] 1 1000).pln[0] = (packAt true 1 (loaded (1000 + ·) 1000)).pln[0] := by
    decide +kernel
  intro p hp h1
  obtain rfl : p = 0 := by omega
  exact h

/-- Unpack widths below, at and above the pack width, in plain and in delta mode (the last as in V-UP7: packed at 1 over
stale planes, unpacked at 7). -/
theorem witness_MismatchedWidthsGiveWrongValuesSilently :
    PacksAt (.packI 3) false 3 (loaded (5 * · % 16) 0) ∧
    exec (.packI 3) (loaded (5 * · % 16) 0) = .next (packAt false 3 (loaded (5 * · % 16) 0)) ∧
    UnpacksAt (.unpackI 2) false 2 (packAt false 3 (loaded (5 * · % 16) 0)) ∧
    UnpacksAt (.unpackI 3) false 3 (packAt false 3 (loaded (5 * · % 16) 0)) ∧
    UnpacksAt (.unpackI 32) false 32 (packAt false 3 (loaded (5 * · % 16) 0)) ∧
    PacksAt (.packID 2) true 2 (loaded steps 100) ∧
    exec (.packID 2) (loaded steps 100) = .next (packAt true 2 (loaded steps 100)) ∧
    UnpacksAt (.unpackID 2) true 2 (packAt true 2 (loaded steps 100)) ∧
    UnpacksAt (.unpackID 0) true 0 (packAt true 2 (loaded steps 100)) ∧
    PacksAt (.packID 1) true 1 { holding rampPlanes 7 1000 with blk := blockOf (1000 + ·) } ∧
    exec (.packID 1) { holding rampPlanes 7 1000 with blk := blockOf (1000 + ·) } =
      .next (packAt true 1 { holding rampPlanes 7 1000 with blk := blockOf (1000 + ·) }) ∧
    UnpacksAt (.unpackID 7) true 7 (packAt true 1 { holding rampPlanes 7 1000 with blk := blockOf (1000 + ·) }) :=
  ⟨.packI 3 _, rfl, .unpackI 2 _, .unpackI 3 _, .unpackI 32 _, .packID 2 _, rfl, .unpackID 2 _, .unpackID 0 _,
    .packID 1 _, rfl, .unpackID 7 _⟩

theorem witness_DecodeAndEncodeAgree :
    (Instr.packI 0).WellFormed ∧ (Instr.unpackID 63).WellFormed ∧ Instr.srst.WellFormed ∧
    decode 0x00003F32#32 = .ok (.packID 63) := by decide

theorem witness_IllegalWordsAreExactlyTheFiveClauses : (33 : Nat) ≤ 33 ∧ 33 ≤ 63 ∧ (33 : Nat) ≤ 63 ∧ 63 ≤ 63 := by decide

theorem witness_TableRowsByMaskAndMatch : (0 : Nat) < 64 ∧ 63 < 64 := by decide

/-- A word that encodes a command, one that does not, and a table row. -/
theorem witness_StepRunsTheDecodedCommand :
    decode 0x00000006#32 = .error .reservedOperation ∧ decode 0x00002023#32 = .ok (.unpackI 32) ∧
    decodeTableWord 32 0x0000000F = some .srst := by decide

theorem witness_BlkEntriesReadAndWriteAtFourI :
    BitVec.ofNat 11 (4 * 0) = 0x000#11 ∧ BitVec.ofNat 11 (4 * 127) = 0x1FC#11 ∧ (0 : Nat) < 128 ∧ 127 < 128 := by decide

theorem witness_PlaneWordsReadAndWriteInQuarters :
    BitVec.ofNat 11 (0x200 + 16 * 0 + 4 * 0) = 0x200#11 ∧ BitVec.ofNat 11 (0x200 + 16 * 31 + 4 * 3) = 0x3FC#11 ∧
    (31 : Nat) < 32 ∧ 3 < 4 := by decide

theorem witness_StatusWriteClearsSelectedFlags : allFlags.word = 0x00000107#32 := by decide

/-- Each cause of AccessFault, at the ends of its range. -/
theorem witness_BadAccessRaisesAccessFault :
    (0x001#11).toNat % 4 ≠ 0 ∧ (0x403#11).toNat % 4 ≠ 0 ∧ (0x7FF#11).toNat % 4 ≠ 0 ∧
    (0x418 ≤ (0x418#11).toNat ∧ (0x418#11).toNat ≤ 0x7FC) ∧ (0x418 ≤ (0x7FC#11).toNat ∧ (0x7FC#11).toNat ≤ 0x7FC) ∧
    ¬ (0x418 ≤ (0x410#11).toNat) ∧ ¬ (0x418 ≤ (0x414#11).toNat) := by decide

/-- Each check failing with the earlier ones passed, and `0x00002162`, which fails two. -/
theorem witness_OneFaultInTheOrderOfTheChecks :
    (Transaction.read 0x418#11).BadAccess ∧ (Transaction.write 0x410#11 0#32).BadAccess ∧
    (Transaction.write 0x402#11 0x00000006#32).BadAccess ∧ ¬ (Transaction.read 0x410#11).BadAccess ∧
    ¬ (Transaction.write 0x400#11 0x00002162#32).BadAccess ∧ decode 0x00002162#32 = .error .reservedBits ∧
    decode 0x00002122#32 = .ok (.packI 33) ∧ PacksAt (.packI 33) false 33 State.reset ∧
    decode 0x00000013#32 = .ok .unpackD ∧ UnpacksAt .unpackD true 63 (holding [] 63 0) := by
  have h : ¬ (Transaction.write 0x400#11 0x00002162#32).BadAccess := by
    show ¬ ((0x400#11).toNat % 4 ≠ 0 ∨ 0x410 ≤ (0x400#11).toNat)
    decide
  have h2 : ¬ (Transaction.read 0x410#11).BadAccess := by
    show ¬ ((0x410#11).toNat % 4 ≠ 0 ∨ 0x418 ≤ (0x410#11).toNat)
    decide
  exact ⟨.inr (by decide), .inr (by decide), .inl (by decide), h2, h, by decide, by decide, .packI 33 _, by decide,
    .unpackD (holding [] 63 0)⟩

/-- An address that reads, one that does not, and addresses other than CMD. -/
theorem witness_ReadsHaveNoEffectAndWritesAreIdempotent :
    peek State.reset 0x414#11 = some 0x00802001#32 ∧ peek State.reset 0x418#11 = none ∧
    (0x404#11 : Addr) ≠ 0x400#11 ∧ (0x402#11 : Addr) ≠ 0x400#11 := by decide

theorem witness_WrittenWordReadsBackAndOthersKeep :
    ((0x000#11).toNat % 4 = 0 ∧ (0x000#11).toNat < 0x400) ∧ ((0x3FC#11).toNat % 4 = 0 ∧ (0x3FC#11).toNat < 0x400) ∧
    (0x408#11).toNat % 4 = 0 ∧ (0x40C#11).toNat % 4 = 0 ∧ (0x400#11 : Addr) ≠ 0x3FC#11 := by decide

/-- Two states that differ in the port alone. -/
theorem witness_EveryPieceOfStateIsReadable (a : Addr) :
    peek (loaded id 7) a = peek { loaded id 7 with rsp := writeDone } a := peek_congr fun l _ => by cases l <;> rfl

theorem witness_SerialisationIsLittleEndianPlaneOrder :
    (1 : Nat) ≤ 32 ∧ 15 < 16 * 1 ∧ (32 : Nat) ≤ 32 ∧ 511 < 16 * 32 := by decide

theorem witness_LoadLinesLoadTheirOperand : State.reset.inbox = [] ∧ (loaded id 7).inbox = [] := ⟨rfl, rfl⟩

/-- Nothing issued; a transaction; a reset. -/
theorem witness_EveryStepAnswers :
    State.reset.inbox = [] ∧ (State.reset.issuing (.read 0x000#11)).inbox = .request (.read 0x000#11) :: [] ∧
    ({ State.reset with inbox := [.reset none] } : State).inbox = .reset none :: [] := ⟨rfl, rfl, rfl⟩

theorem witness_SetFlagsBlockNothing : Transaction.write 0x400#11 1#32 ≠ .read 0x404#11 := by decide

/-- Two states that agree on the named inputs of a command and on nothing else. -/
theorem witness_CommandsReadOnlyNamedInputs :
    { holding rampPlanes 5 9 with blk := (loaded id 0).blk }.blk = (loaded id 0).blk ∧
    { holding rampPlanes 5 9 with blk := (loaded id 9).blk }.offset = (loaded id 9).offset ∧
    { holding rampPlanes 5 9 with blk := (loaded id 0).blk }.status.trunc = (loaded id 0).status.trunc ∧
    PacksAt (.packI 5) false 5 (loaded id 0) ∧
    PacksAt .pack false 5 { holding rampPlanes 5 9 with blk := (loaded id 0).blk } ∧
    UnpacksAt (.unpackI 7) false 7 (holding rampPlanes 0 0) ∧
    UnpacksAt .unpack false 7 (holding (rampPlanes ++ [ones]) 7 9) ∧
    ∀ (p : Nat) (_ : p < 32), p < 7 → (holding (rampPlanes ++ [ones]) 7 9).pln[p] = (holding rampPlanes 0 0).pln[p] := by
  refine ⟨rfl, rfl, rfl, .packI 5 _, .pack { holding rampPlanes 5 9 with blk := (loaded id 0).blk }, .unpackI 7 _,
    .unpack (holding (rampPlanes ++ [ones]) 7 9), ?_⟩
  have h : ∀ p : Fin 32, p.val < 7 → (holding (rampPlanes ++ [ones]) 7 9).pln[p] = (holding rampPlanes 0 0).pln[p] := by
    decide +kernel
  exact fun p hp => h ⟨p, hp⟩

/-- For each clause an address just outside the words that the command may change: after plane b-1, at b = 31 and at
b = 32, and every plane when the command is refused. -/
theorem witness_CommandsChangeOnlyTheirWords :
    ((0x408#11 : Addr) ≠ 0x40C#11 ∧ (0x408#11 : Addr) ≠ 0x410#11) ∧
    (PacksAt (.packI 31) false 31 State.reset ∧ (0x3F0#11 : Addr) ≠ 0x404#11 ∧
      ¬ (31 ≤ 32 ∧ 0x200 ≤ (0x3F0#11).toNat ∧ (0x3F0#11).toNat < 0x200 + 16 * 31)) ∧
    (PacksAt (.packI 32) false 32 State.reset ∧
      ¬ (32 ≤ 32 ∧ 0x200 ≤ (0x1FC#11).toNat ∧ (0x1FC#11).toNat < 0x200 + 16 * 32) ∧
      ¬ (32 ≤ 32 ∧ 0x200 ≤ (0x400#11).toNat ∧ (0x400#11).toNat < 0x200 + 16 * 32)) ∧
    (PacksAt (.packI 33) false 33 State.reset ∧
      ¬ (33 ≤ 32 ∧ 0x200 ≤ (0x200#11).toNat ∧ (0x200#11).toNat < 0x200 + 16 * 33)) ∧
    (UnpacksAt (.unpackI 32) false 32 State.reset ∧ 0x200 ≤ (0x404#11).toNat ∧ (32 : Nat) ≤ 32) ∧
    (UnpacksAt (.unpackI 33) false 33 State.reset ∧ 0x200 ≤ (0x200#11).toNat ∧ (0x200#11 : Addr) ≠ 0x404#11) :=
  ⟨by decide, ⟨.packI 31 _, by decide, by decide⟩, ⟨.packI 32 _, by decide, by decide⟩, ⟨.packI 33 _, by decide⟩,
    ⟨.unpackI 32 _, by decide, by decide⟩, ⟨.unpackI 33 _, by decide, by decide⟩⟩

/-- Steps that do change OFFSET, MAXV and WIDTH, each by an event the statement names. -/
theorem witness_OnlyNamedEventsChangeRegisters :
    passes (step (State.reset.issuing (.write 0x408#11 1#32))) (fun t => decide (t.offset ≠ 0#32)) = true ∧
    passes (step ((loaded id 0).issuing (.write 0x400#11 1#32)))
      (fun t => decide (t.maxv ≠ 0#32) && decide (t.width ≠ 0#6)) = true ∧
    passes (step ((loaded id 0).issuing (.write 0x400#11 0x11#32))) (fun t => decide (t.maxv ≠ 0#32)) = true ∧
    passes (step (State.reset.issuing (.write 0x40C#11 63#32))) (fun t => decide (t.width ≠ 0#6)) = true ∧
    passes (step ((holding [] 1 1).issuing (.write 0x400#11 0xF#32)))
      (fun t => decide (t.offset ≠ 1#32) && decide (t.width ≠ 1#6)) = true ∧
    passes (step { holding [] 1 1 with inbox := [.reset none] }) (fun t => decide (t.offset ≠ 1#32)) = true := by
  refine ⟨?_, ?_, ?_, ?_, ?_, ?_⟩ <;> decide +kernel

/-- A flag that is set and is cleared by the step, by each of the three events. -/
theorem witness_FlagsAreSticky :
    allFlags.word.getLsbD 8 = true ∧
    passes (step (State.issuing { State.reset with status := allFlags } (.write 0x404#11 0x100#32)))
      (fun t => !t.status.word.getLsbD 8) = true ∧
    passes (step (State.issuing { State.reset with status := allFlags } (.write 0x400#11 0xF#32)))
      (fun t => !t.status.word.getLsbD 8) = true ∧
    passes (step { State.reset with status := allFlags, inbox := [.reset none] })
      (fun t => !t.status.word.getLsbD 8) = true := by
  refine ⟨?_, ?_, ?_, ?_⟩ <;> decide +kernel

/-- A step that answers an error. -/
theorem witness_ErrorResponsesAreRecorded :
    step (State.reset.issuing (.read 0x7FC#11)) = .next (raise .accessFault State.reset) ∧
    (raise .accessFault State.reset).rsp = refusedTransaction := ⟨rfl, rfl⟩

/-- The reset state, with a command issued, meets the invariant, and steps. -/
theorem witness_WidthStaysTheWidthOfMaxv :
    WidthMatchesMaxv (State.reset.issuing (.write 0x400#11 1#32)) ∧
    step (State.reset.issuing (.write 0x400#11 1#32)) = .next (analyzeBlock State.reset.blk State.reset) := by
  refine ⟨⟨by decide +kernel, ?_⟩, rfl⟩
  intro e he v
  simp only [State.issuing, State.reset, List.mem_singleton] at he
  subst he
  simp [widthAddr]

/-- A run of one step from that state. -/
theorem witness_RegisterFormsNeverRefusedWithoutWidthWrite :
    Sys2Proof.core.run 1 (State.reset.issuing (.write 0x400#11 1#32)) =
      .next (analyzeBlock State.reset.blk State.reset) := rfl

end Sys2Proof.Machine
end

section
/-! PROOFS. The pure functions of 00_scope.md section 7 (rules R5, R7, R8): the width of a value in its three forms, and
the width of a block's maximum as the largest lane width and as the width of the lanes' OR. Every law of `width32` comes
from `width32_le_iff`: a width is known by the numbers it is at most. -/

namespace Sys2Proof.Machine

/-! ### add32 and sub32 (rule R5) -/

theorem add32_toNat (a b : Word) : (add32 a b).toNat = (a.toNat + b.toNat) % 2 ^ 32 := BitVec.toNat_add a b

theorem sub32_toNat (a b : Word) : (sub32 a b).toNat = (a.toNat + (2 ^ 32 - b.toNat)) % 2 ^ 32 := by
  rw [sub32, BitVec.toNat_sub, Nat.add_comm]

@[simp] theorem add32_sub32_cancel (a b : Word) : add32 (sub32 a b) b = a := BitVec.sub_add_cancel a b

@[simp] theorem sub32_self (a : Word) : sub32 a a = 0#32 := BitVec.sub_self a

/-- Settles O5: the model's operations are those of `BitVec 32`. -/
theorem additionAndSubtractionWrap : Obligations.AdditionAndSubtractionWrap :=
  ⟨add32_toNat, sub32_toNat, add32_sub32_cancel, sub32_self, rfl, rfl⟩

/-! ### width32 of one value (rule R7) -/

/-- A value fits in its own width. -/
theorem toNat_lt_two_pow_width32 (v : Word) : v.toNat < 2 ^ width32 v := (width32_le_iff v _).mp le_rfl

theorem width32_eq_clog (v : Word) : width32 v = Nat.clog 2 (v.toNat + 1) :=
  eq_of_forall_ge_iff fun b => by rw [width32_le_iff, Nat.clog_le_iff_le_pow Nat.one_lt_two, Nat.succ_le_iff]

theorem width32_eq_log_add_one {v : Word} (h : 0 < v.toNat) : width32 v = Nat.log 2 v.toNat + 1 :=
  eq_of_forall_ge_iff fun b => by
    rw [width32_le_iff, Nat.succ_le_iff, Nat.log_lt_iff_lt_pow Nat.one_lt_two h.ne']

/-- Settles O6: the least width and both logarithms are `width32_le_iff` read through the library's laws of `Nat.log` and
`Nat.clog`; the corners are evaluated. -/
theorem widthIsSmallestExactFit : Obligations.WidthIsSmallestExactFit :=
  ⟨fun v => ⟨width32_le v, toNat_lt_two_pow_width32 v, fun b => (width32_le_iff v b).mpr⟩,
    fun _ => width32_eq_log_add_one, width32_eq_clog, by decide +kernel⟩

/-! ### width32 over a block (rule R8) -/

theorem width32_mono {a b : Word} (h : a.toNat ≤ b.toNat) : width32 a ≤ width32 b :=
  (width32_le_iff a _).mpr (h.trans_lt (toNat_lt_two_pow_width32 b))

/-- An OR fits in n bits exactly when both of its operands do. -/
theorem width32_or_le_iff (a b : Word) (n : Nat) : width32 (a ||| b) ≤ n ↔ width32 a ≤ n ∧ width32 b ≤ n := by
  simp only [width32_le_iff, BitVec.toNat_or]
  constructor
  · intro h
    exact ⟨Nat.left_le_or.trans_lt h, Nat.right_le_or.trans_lt h⟩
  · rintro ⟨ha, hb⟩
    exact Nat.or_lt_two_pow ha hb

theorem width32_foldl_or_le_iff (l : List Word) (m : Word) (n : Nat) :
    width32 (l.foldl (fun x v => x ||| v) m) ≤ n ↔ width32 m ≤ n ∧ ∀ v ∈ l, width32 v ≤ n := by
  induction l generalizing m with
  | nil => simp
  | cons v l ih => rw [List.foldl_cons, ih, width32_or_le_iff, List.forall_mem_cons, and_assoc]

/-- The OR of a block fits in n bits exactly when every lane does, as its maximum does (`width32_umax_le_iff`). -/
theorem width32_or_lanes (E : Block) : width32 (E.toList.foldl (fun x v => x ||| v) 0#32) = width32 (umax E) :=
  eq_of_forall_ge_iff fun n => by
    have h0 : width32 0#32 ≤ n := (width32_le_iff _ n).mpr (Nat.two_pow_pos n)
    rw [width32_foldl_or_le_iff, width32_umax_le_iff]
    simp [h0, width32_le_iff, Fin.forall_iff, Vector.forall_mem_iff_forall_getElem]

/-- Settles O7: no lane is above the maximum, some lane holds it, and the OR needs the same width. -/
theorem widthOfMaximumIsWidthOfOr : Obligations.WidthOfMaximumIsWidthOfOr := by
  refine ⟨fun _ _ => width32_mono, fun E => ⟨fun i hi => width32_mono (le_umax E ⟨i, hi⟩), ?_, width32_or_lanes E⟩⟩
  obtain ⟨i, hi⟩ := exists_umax E
  exact ⟨i.val, i.isLt, congrArg width32 hi⟩

end Sys2Proof.Machine
end

section
/-! PROOFS. What every transaction leaves: the rest of the host's events and a response (rules R3, R51, R170). The lemmas
follow the definitions of Machine/Port.lean from the command outwards. -/

namespace Sys2Proof.Machine

/-- From `s` to `t` the CORE gives a response and takes nothing from what the host has still to issue. -/
def RespondsFrom (s t : State) : Prop := t.inbox = s.inbox ∧ t.rsp.isSome = true

theorem respondsFrom_respond (v : Word) (s : State) : RespondsFrom s (respond v s) := ⟨rfl, rfl⟩

theorem respondsFrom_raise (f : PortFault) (s : State) : RespondsFrom s (raise f s) := ⟨rfl, rfl⟩

theorem respondsFrom_complete {s u : State} (h : u.inbox = s.inbox) : RespondsFrom s (complete u) := ⟨h, rfl⟩

theorem respondsFrom_packAt (d : Bool) (b : Nat) (s : State) : RespondsFrom s (packAt d b s) := by
  rcases Nat.lt_or_ge 32 b with h | h
  · exact packAt_of_gt h d s ▸ respondsFrom_raise _ s
  · exact packAt_of_le h d s ▸ respondsFrom_complete rfl

theorem respondsFrom_unpackAt (d : Bool) (b : Nat) (s : State) : RespondsFrom s (unpackAt d b s) := by
  rcases Nat.lt_or_ge 32 b with h | h
  · exact unpackAt_of_gt h d s ▸ respondsFrom_raise _ s
  · exact unpackAt_of_le h d s ▸ respondsFrom_complete rfl

theorem exec_responds (i : Instr) (s : State) : Answers (exec i s) (RespondsFrom s) := by
  rcases exec_cases i s with
    ⟨-, e⟩ | ⟨-, e⟩ | ⟨-, e⟩ | ⟨-, e⟩ | ⟨-, e⟩ | ⟨-, e⟩ | ⟨d, b, -, e⟩ | ⟨d, b, -, e⟩ <;> refine answers_of_eq e ?_
  iterate 6 exact respondsFrom_complete rfl
  · exact respondsFrom_packAt d b s
  · exact respondsFrom_unpackAt d b s

theorem writeCmd_responds (w : Word) (s : State) : Answers (writeCmd w s) (RespondsFrom s) := by
  cases h : decode w with
  | ok i => exact writeCmd_of_ok h s ▸ exec_responds i s
  | error e => exact answers_of_eq (writeCmd_of_error h s) (respondsFrom_raise _ s)

theorem writeLocation_responds (l : Location) (v : Word) (s : State) :
    Answers (writeLocation l v s) (RespondsFrom s) := by
  cases l with
  | cmd => exact writeCmd_responds v s
  | maxv | idr => exact answers_of_eq rfl (respondsFrom_raise _ s)
  | blk | pln | status | offset | width => exact answers_of_eq rfl (respondsFrom_complete rfl)

theorem busWrite_responds (a : Addr) (v : Word) (s : State) : Answers (busWrite a v s) (RespondsFrom s) := by
  obtain ⟨l, -, h⟩ | ⟨-, h⟩ := busWrite_cases a v s
  · exact h ▸ writeLocation_responds l v s
  · exact answers_of_eq h (respondsFrom_raise _ s)

theorem respondsFrom_busRead (a : Addr) (s : State) : RespondsFrom s (busRead a s) := by
  obtain ⟨l, -, h⟩ | ⟨-, h⟩ := busRead_cases a s
  · exact h ▸ respondsFrom_respond _ s
  · exact h ▸ respondsFrom_raise _ s

/-- Every transaction answers, with a response (rules R51, R170). -/
theorem transact_responds (txn : Transaction) (s : State) : Answers (transact txn s) (RespondsFrom s) := by
  cases txn with
  | read a => exact answers_of_eq rfl (respondsFrom_busRead a s)
  | write a v => exact busWrite_responds a v s

/-- Every event of the host answers, and a response is given exactly to a transaction (rules R51, R190, R191). -/
theorem serve_answers (e : HostEvent) (s : State) :
    Answers (serve e s) fun t => t.inbox = s.inbox ∧ (t.rsp.isSome = true ↔ ∃ txn, e = .request txn) := by
  cases e with
  | request txn =>
    obtain ⟨t, h, hinbox, hrsp⟩ := transact_responds txn s
    exact ⟨t, h, hinbox, iff_of_true hrsp ⟨txn, rfl⟩⟩
  | reset ab => exact ⟨_, rfl, rfl, by simp [hardwareReset]⟩

/-- Settles O43: a step is idle or serves the first event. -/
theorem everyStepAnswers : Obligations.EveryStepAnswers := by
  intro s
  cases hs : s.inbox with
  | nil => exact answers_of_eq (step_idle hs) ⟨fun _ => by rw [← hs]; rfl, nofun⟩
  | cons e rest =>
    obtain ⟨t, h, ht⟩ := serve_answers e { s with inbox := rest }
    refine answers_of_eq ((step_serve hs).trans h) ⟨nofun, ?_⟩
    rintro _ _ ⟨⟩
    exact ht

end Sys2Proof.Machine
end

section
/-! PROOFS. A legal command word is the encoding of its command (rules R81, R83, R87). -/

namespace Sys2Proof

theorem plainOnly_eq_ok {d i : Bool} {c c' : Instr} (h : plainOnly d i c = .ok c') :
    d = false ∧ i = false ∧ c = c' := by
  unfold plainOnly at h
  split at h
  · next hd => exact ⟨hd.1, hd.2, Except.ok.inj h⟩
  · cases h

/-- The fields of a legal word are those that `encode` lays out: BIMM is 0 where I is (rules R83, R84). -/
theorem encode_eq_of_decodeFields {op : BitVec 4} {d i : Bool} {b : BitVec 6} {c : Instr}
    (hb : i = false → b = 0#6) (h : decodeFields op d i b.toNat = .ok c) : encode c = commandWord op d i b := by
  have hop : op = BitVec.ofNat 4 op.toNat := (BitVec.ofNat_toNat 4 op).symm
  unfold decodeFields at h
  split at h
  case h_1 hk | h_5 hk | h_6 hk | h_7 hk =>
    obtain ⟨rfl, rfl, rfl⟩ := plainOnly_eq_ok h
    rw [hop, hk, hb rfl, encode]
  case h_2 hk =>
    rw [hop, hk]
    cases i with
    | false => rw [hb rfl]; cases d <;> (cases h; rfl)
    | true => cases h
  case h_3 hk | h_4 hk =>
    rw [hop, hk]
    cases i with
    | false => rw [hb rfl]; cases d <;> (cases h; rfl)
    | true => cases d <;> (cases h; simp [encode])
  case h_8 => cases h

theorem encode_eq_of_decode {w : Word} {c : Instr} (h : decode w = .ok c) : encode c = w := by
  unfold decode at h
  split at h
  · cases h
  next hreserved =>
    obtain ⟨hhigh, hlow⟩ := not_or.mp hreserved
    split at h
    · cases h
    next himmediate =>
      have hb : immediateField w = false → bimmField w = 0#6 :=
        fun hi => by_contra fun hne => himmediate ⟨hi, hne⟩
      rw [eq_commandWord w (not_not.mp hhigh) (not_not.mp hlow)]
      exact encode_eq_of_decodeFields hb h

end Sys2Proof
end

section
/-! PROOFS. What one event of the host can do to the registers, said once (`EventEffect`), and what follows of every
step and every run: which events change OFFSET, MAXV and WIDTH, that the flags are sticky, and that WIDTH stays the
width of MAXV (rules R25 to R28). -/

namespace Sys2Proof.Machine

/-- What the event `e` can make of the state `s`. Every write of BLK and PLN, by the host or by a command, is
`buffers`; the events that touch OFFSET, MAXV and WIDTH or clear a flag are named. -/
inductive EventEffect (e : HostEvent) (s : State) : State → Prop where
  /-- A read, or NOP. -/
  | respond (v : Word) : EventEffect e s (respond v s)
  /-- A refused transaction. -/
  | raise (f : PortFault) : EventEffect e s (raise f s)
  /-- BLK or PLN is written, and a pack may truncate. -/
  | buffers (B : Block) (P : Planes) (truncated : Bool) :
      EventEffect e s (complete { s with blk := B, pln := P, status := s.status.noteTruncation truncated })
  | statusWrite (w : Word) (he : e = .request (.write statusAddr w)) :
      EventEffect e s (complete { s with status := s.status.writeOneToClear w })
  | offsetWrite (v : Word) (he : e = .request (.write offsetAddr v)) :
      EventEffect e s (complete { s with offset := v })
  | widthWrite (v : Word) (he : e = .request (.write widthAddr v)) :
      EventEffect e s (complete { s with width := v.setWidth 6 })
  /-- ANALYZE, or ANALYZE.D. -/
  | analyze (E : Block)
      (he : e = .request (.write cmdAddr 0x00000001#32) ∨ e = .request (.write cmdAddr 0x00000011#32)) :
      EventEffect e s (analyzeBlock E s)
  | srst (he : e = .request (.write cmdAddr 0x0000000F#32)) : EventEffect e s (complete (cleared s))
  | reset (ab : Option Transaction) (he : e = .reset ab) : EventEffect e s (cleared s)

theorem noteTruncation_false (st : Status) : st.noteTruncation false = st := by simp [Status.noteTruncation]

section
variable {e : HostEvent} {s : State}

/-- The host, or a command other than a pack, writes BLK or PLN. -/
theorem eventEffect_buffers (B : Block) (P : Planes) : EventEffect e s (complete { s with blk := B, pln := P }) := by
  simpa only [noteTruncation_false] using EventEffect.buffers (e := e) (s := s) B P false

theorem eventEffect_packAt (d : Bool) (b : Nat) : EventEffect e s (packAt d b s) := by
  rcases Nat.lt_or_ge 32 b with h | h
  · exact packAt_of_gt h d s ▸ .raise _
  · exact packAt_of_le h d s ▸ .buffers s.blk _ _

theorem eventEffect_unpackAt (d : Bool) (b : Nat) : EventEffect e s (unpackAt d b s) := by
  rcases Nat.lt_or_ge 32 b with h | h
  · exact unpackAt_of_gt h d s ▸ .raise _
  · exact unpackAt_of_le h d s ▸ eventEffect_buffers _ s.pln

theorem exec_effect {w : Word} {i : Instr} (hw : encode i = w) (he : e = .request (.write cmdAddr w)) :
    Answers (exec i s) (EventEffect e s) := by
  obtain ⟨-, h⟩ | ⟨rfl, h⟩ | ⟨rfl, h⟩ | ⟨rfl, h⟩ | ⟨-, h⟩ | ⟨-, h⟩ | ⟨d, b, -, h⟩ | ⟨d, b, -, h⟩ := exec_cases i s <;>
    refine answers_of_eq h ?_
  · exact .respond 0#32
  · exact .srst (he.trans (hw ▸ rfl))
  · exact .analyze _ (.inl (he.trans (hw ▸ rfl)))
  · exact .analyze _ (.inr (he.trans (hw ▸ rfl)))
  · exact eventEffect_buffers _ s.pln
  · exact eventEffect_buffers _ s.pln
  · exact eventEffect_packAt d b
  · exact eventEffect_unpackAt d b

theorem writeCmd_effect {w : Word} (he : e = .request (.write cmdAddr w)) :
    Answers (writeCmd w s) (EventEffect e s) := by
  cases h : decode w with
  | ok i => exact writeCmd_of_ok h s ▸ exec_effect (encode_eq_of_decode h) he
  | error r => exact answers_of_eq (writeCmd_of_error h s) (.raise _)

theorem writeLocation_effect {l : Location} {v : Word} (he : e = .request (.write l.addr v)) :
    Answers (writeLocation l v s) (EventEffect e s) := by
  cases l with
  | blk i => exact answers_of_eq rfl (eventEffect_buffers _ s.pln)
  | pln p k => exact answers_of_eq rfl (eventEffect_buffers s.blk _)
  | cmd => exact writeCmd_effect he
  | status => exact answers_of_eq rfl (.statusWrite v he)
  | offset => exact answers_of_eq rfl (.offsetWrite v he)
  | width => exact answers_of_eq rfl (.widthWrite v he)
  | maxv | idr => exact answers_of_eq rfl (.raise _)

theorem busWrite_effect {a : Addr} {v : Word} (he : e = .request (.write a v)) :
    Answers (busWrite a v s) (EventEffect e s) := by
  obtain ⟨l, rfl, h⟩ | ⟨-, h⟩ := busWrite_cases a v s
  · exact h ▸ writeLocation_effect he
  · exact answers_of_eq h (.raise _)

theorem eventEffect_busRead (a : Addr) : EventEffect e s (busRead a s) := by
  obtain ⟨l, -, h⟩ | ⟨-, h⟩ := busRead_cases a s
  · exact h ▸ .respond _
  · exact h ▸ .raise _

end

/-- Everything an event can do. -/
theorem serve_effect (e : HostEvent) (s : State) : Answers (serve e s) (EventEffect e s) := by
  cases e with
  | reset ab => exact answers_of_eq rfl (.reset ab rfl)
  | request txn =>
    cases txn with
    | read a => exact answers_of_eq rfl (eventEffect_busRead a)
    | write a v => exact busWrite_effect rfl

theorem effect_of_step {s t : State} {e : HostEvent} {rest : List HostEvent} (hs : s.inbox = e :: rest)
    (h : step s = .next t) : EventEffect e { s with inbox := rest } t := by
  obtain ⟨u, hu, heff⟩ := serve_effect e { s with inbox := rest }
  obtain rfl := Host.Outcome.next.inj (h.symm.trans ((step_serve hs).trans hu))
  exact heff

/-- Everything a step can do: it is idle, or it serves the first event. -/
theorem step_cases {s t : State} (h : step s = .next t) :
    (s.inbox = [] ∧ t = idle s) ∨
    ∃ e rest, s.inbox = e :: rest ∧ EventEffect e { s with inbox := rest } t := by
  cases hs : s.inbox with
  | nil => exact .inl ⟨rfl, Host.Outcome.next.inj (h.symm.trans (step_idle hs))⟩
  | cons e rest => exact .inr ⟨e, rest, rfl, effect_of_step hs h⟩

/-! ### OFFSET, MAXV and WIDTH (rules R25 to R27) -/

section
variable {e : HostEvent} {s t : State} (h : EventEffect e s t)
include h

theorem eventEffect_inbox : t.inbox = s.inbox := by cases h <;> rfl

theorem event_of_offset_ne (hne : t.offset ≠ s.offset) :
    (∃ v, e = .request (.write offsetAddr v)) ∨ e = .request (.write cmdAddr 0x0000000F#32) ∨
      ∃ ab, e = .reset ab := by
  cases h with
  | offsetWrite v he => exact .inl ⟨v, he⟩
  | srst he => exact .inr (.inl he)
  | reset ab he => exact .inr (.inr ⟨ab, he⟩)
  | respond | raise | buffers | statusWrite | widthWrite | analyze => exact absurd rfl hne

theorem event_of_maxv_ne (hne : t.maxv ≠ s.maxv) :
    e = .request (.write cmdAddr 0x00000001#32) ∨ e = .request (.write cmdAddr 0x00000011#32) ∨
      e = .request (.write cmdAddr 0x0000000F#32) ∨ ∃ ab, e = .reset ab := by
  cases h with
  | analyze E he => exact he.imp_right .inl
  | srst he => exact .inr (.inr (.inl he))
  | reset ab he => exact .inr (.inr (.inr ⟨ab, he⟩))
  | respond | raise | buffers | statusWrite | offsetWrite | widthWrite => exact absurd rfl hne

theorem event_of_width_ne (hne : t.width ≠ s.width) :
    (∃ v, e = .request (.write widthAddr v)) ∨ e = .request (.write cmdAddr 0x00000001#32) ∨
      e = .request (.write cmdAddr 0x00000011#32) ∨ e = .request (.write cmdAddr 0x0000000F#32) ∨
      ∃ ab, e = .reset ab := by
  cases h with
  | widthWrite v he => exact .inl ⟨v, he⟩
  | analyze E he => exact .inr (he.imp_right .inl)
  | srst he => exact .inr (.inr (.inr (.inl he)))
  | reset ab he => exact .inr (.inr (.inr (.inr ⟨ab, he⟩)))
  | respond | raise | buffers | statusWrite | offsetWrite => exact absurd rfl hne

end

/-- Settles O47: the registers one by one, from what an event can do. -/
theorem onlyNamedEventsChangeRegisters : Obligations.OnlyNamedEventsChangeRegisters := by
  intro s t e rest hs hstep
  have heff := effect_of_step hs hstep
  exact ⟨fun hne => event_of_offset_ne heff hne, fun hne => event_of_maxv_ne heff hne,
    fun hne => event_of_width_ne heff hne⟩

/-! ### WIDTH is the width of MAXV (rule R27) -/

theorem width32_zero : width32 0#32 = 0 := Nat.le_zero.mp ((width32_le_iff _ 0).mpr Nat.one_pos)

/-- An event other than a write to WIDTH changes WIDTH together with MAXV. -/
theorem eventEffect_width_eq {e : HostEvent} {s t : State} (h : EventEffect e s t) (he : e.KeepsWidth)
    (hw : s.width.toNat = width32 s.maxv) : t.width.toNat = width32 t.maxv := by
  cases h with
  | widthWrite v hv => exact absurd hv (he v)
  | analyze E => exact width32_ofNat_toNat (umax E)
  | srst | reset => exact width32_zero.symm
  | respond | raise | buffers | statusWrite | offsetWrite => exact hw

/-- Settles O50: the invariant is kept by an idle step and by every event the host has issued. -/
theorem widthStaysTheWidthOfMaxv : Obligations.WidthStaysTheWidthOfMaxv := by
  rintro s t ⟨hw, hin⟩ hstep
  obtain ⟨hs, rfl⟩ | ⟨e, rest, hs, heff⟩ := step_cases hstep
  · exact ⟨hw, hin⟩
  · rw [hs, List.forall_mem_cons] at hin
    exact ⟨eventEffect_width_eq heff hin.1 hw, eventEffect_inbox heff ▸ hin.2⟩

/-- Settles O51: nothing is issued in the reset state, and its WIDTH and MAXV are 0. -/
theorem resetStateMeetsWidthMatch : Obligations.ResetStateMeetsWidthMatch :=
  ⟨width32_zero.symm, List.forall_mem_nil _⟩

/-- A pack or unpack command at a legal width is not refused (rules R123, R137). -/
theorem exec_writeDone_of_le {i : Instr} {d : Bool} {b : Nat} {s : State}
    (h : PacksAt i d b s ∨ UnpacksAt i d b s) (hb : b ≤ 32) : Answers (exec i s) fun t => t.rsp = writeDone := by
  obtain h | h := h
  · exact answers_of_eq (exec_of_packsAt h) (packAt_of_le hb d s ▸ rfl)
  · exact answers_of_eq (exec_of_unpacksAt h) (unpackAt_of_le hb d s ▸ rfl)

/-- Settles O52: the invariant holds along the run, and every `width32` is a legal width. -/
theorem registerFormsNeverRefusedWithoutWidthWrite : Obligations.RegisterFormsNeverRefusedWithoutWidthWrite := by
  intro n s t hs hrun
  have ht : WidthMatchesMaxv t := run_induction widthStaysTheWidthOfMaxv n hs hrun
  have hw : t.width.toNat ≤ 32 := ht.width_eq ▸ width32_le t.maxv
  refine ⟨hw, ?_⟩
  rintro i (rfl | rfl | rfl | rfl)
  · exact exec_writeDone_of_le (.inl (.pack t)) hw
  · exact exec_writeDone_of_le (.inl (.packD t)) hw
  · exact exec_writeDone_of_le (.inr (.unpack t)) hw
  · exact exec_writeDone_of_le (.inr (.unpackD t)) hw

/-! ### The flags of STATUS (rules R28, R29) -/

/-- A fault is recorded in its own bit (rule R160). -/
theorem setFault_word (f : PortFault) (st : Status) : (st.setFault f).word = st.word ||| 1#32 <<< f.code := by
  obtain ⟨illcmd, width, acc, trunc⟩ := st
  cases f <;> (revert illcmd width acc trunc; decide)

/-- A truncation is recorded in TRUNC (rule R125). -/
theorem noteTruncation_word (b : Bool) (st : Status) :
    (st.noteTruncation b).word = st.word ||| flagBit b truncBit := by
  obtain ⟨illcmd, width, acc, trunc⟩ := st
  revert b illcmd width acc trunc
  decide

/-- The bits of 0x107 are those of the four flags. -/
theorem flagMask_getLsbD (n : Nat) : (0x00000107#32).getLsbD n = decide (n = 0 ∨ n = 1 ∨ n = 2 ∨ n = 8) := by
  by_cases hn : n < 32
  · have h : ∀ m : Fin 32, (0x00000107#32).getLsbD m = decide (m.val = 0 ∨ m.val = 1 ∨ m.val = 2 ∨ m.val = 8) := by
      decide
    exact h ⟨n, hn⟩
  · rw [BitVec.getLsbD_of_ge _ _ (Nat.le_of_not_lt hn)]
    exact (decide_eq_false (by omega)).symm

/-- A write of `w` to STATUS clears the bits of `w` in 0x107 (rule R29). -/
theorem writeOneToClear_word (st : Status) (w : Word) :
    (st.writeOneToClear w).word = st.word &&& ~~~(w &&& 0x00000107#32) := by
  apply BitVec.eq_of_getLsbD_eq
  intro n hn
  simp only [BitVec.getLsbD_and, BitVec.getLsbD_not, status_word_getLsbD, flagMask_getLsbD, hn]
  by_cases hf : n = 0 ∨ n = 1 ∨ n = 2 ∨ n = 8
  · rcases hf with rfl | rfl | rfl | rfl <;> simp [Status.writeOneToClear, PortFault.code, truncBit]
  · simp_all

/-- Only a write of 1 to a flag's bit of STATUS, SRST and a reset clear it. -/
theorem event_of_flag_cleared {e : HostEvent} {s t : State} {n : Nat} (h : EventEffect e s t)
    (hset : s.status.word.getLsbD n = true) (hclear : t.status.word.getLsbD n = false) :
    (∃ w : Word, e = .request (.write statusAddr w) ∧ w.getLsbD n = true) ∨
      e = .request (.write cmdAddr 0x0000000F#32) ∨ ∃ ab, e = .reset ab := by
  cases h with
  | statusWrite w he =>
    have hn : n < 32 := BitVec.lt_of_getLsbD hset
    have hbits : w.getLsbD n = true ∧ (0x00000107#32).getLsbD n = true := by
      simpa [writeOneToClear_word, hset, hn] using hclear
    exact .inl ⟨w, he, hbits.1⟩
  | srst he => exact .inr (.inl he)
  | reset ab he => exact .inr (.inr ⟨ab, he⟩)
  | raise f => simp [setFault_word, hset] at hclear
  | buffers B P b => simp [noteTruncation_word, hset] at hclear
  | respond | offsetWrite | widthWrite | analyze => exact absurd (hset.symm.trans hclear) Bool.noConfusion

/-- Settles O48: an idle step keeps STATUS, and an event that clears a flag is one of the three. -/
theorem flagsAreSticky : Obligations.FlagsAreSticky := by
  intro s t n hset hstep hclear
  obtain ⟨-, rfl⟩ | ⟨e, rest, hs, heff⟩ := step_cases hstep
  · exact absurd (hset.symm.trans hclear) Bool.noConfusion
  · exact ⟨e, rest, hs, event_of_flag_cleared heff hset hclear⟩

end Sys2Proof.Machine
end

section
/-! PROOFS. The registers and buffers through the window (rules R25 to R33, R36, R55): what a transaction at a location's
address does, the STATUS word, what reset leaves, and that nothing of the state is hidden. -/

namespace Sys2Proof.Machine

theorem step_read_addr (l : Location) (s : State) :
    step (s.issuing (.read l.addr)) = .next (respond (readLocation s l) s) := by
  show Host.Outcome.next (busRead l.addr s) = _
  rw [busRead, peek_addr]

theorem step_write_addr (l : Location) (v : Word) (s : State) :
    step (s.issuing (.write l.addr v)) = writeLocation l v s := busWrite_addr l v s

theorem idrValue_eq : idrValue = 0x00802001#32 := by decide

/-- Settles O33: each address is that of its location. -/
theorem registersReadAndWriteAtTheirAddresses : Obligations.RegistersReadAndWriteAtTheirAddresses := fun s v =>
  ⟨step_read_addr .cmd s, step_read_addr .status s, step_read_addr .offset s, step_read_addr .width s,
    step_read_addr .maxv s, idrValue_eq ▸ step_read_addr .idr s, step_write_addr .offset v s,
    (step_write_addr .width v s).trans (by rw [← BitVec.setWidth_eq_extractLsb' (by decide)]; rfl)⟩

/-- Settles O34: STATUS answers its word, whose bits `status_word_getLsbD` gives. -/
theorem statusReadsFourFlags : Obligations.StatusReadsFourFlags := by
  intro s
  refine answers_of_eq (step_read_addr .status s) ⟨s.status.word, rfl, ?_⟩
  simp +contextual [status_word_getLsbD, -BitVec.getLsbD_eq_getElem]

/-- No bit outside 0x107 is set in STATUS (rule R32). -/
theorem status_word_and_not_flagMask (st : Status) : st.word &&& ~~~0x00000107#32 = 0#32 := by
  obtain ⟨illcmd, width, acc, trunc⟩ := st
  revert illcmd width acc trunc
  decide

/-- Settles O35: the write of `writeOneToClear_word`, and the four flags are all of STATUS. -/
theorem statusWriteClearsSelectedFlags : Obligations.StatusWriteClearsSelectedFlags := by
  intro s w
  refine answers_of_eq (step_write_addr .status w s) ⟨writeOneToClear_word _ w, ?_, rfl⟩
  rintro (rfl | rfl) <;> exact (writeOneToClear_word _ _).trans (status_word_and_not_flagMask _)

/-! ### Reset (rule R36) -/

theorem allZero_cleared (s : State) : AllZero (cleared s) where
  blk _ hi := Vector.getElem_replicate hi
  pln _ hp := Vector.getElem_replicate hp
  offset := rfl
  width := rfl
  maxv := rfl
  status := rfl

theorem allZero_reset : AllZero State.reset := allZero_cleared State.reset

/-- Settles O1: SRST and `rst_n` leave the reset state, whose block is all 0 and whose packed buffer has no plane. -/
theorem resetAndSrstLeaveAllZero : Obligations.ResetAndSrstLeaveAllZero := by
  refine ⟨allZero_reset, ⟨fun i hi => ?_, 0, by decide, allZero_reset.blk 0 _⟩, fun c => ?_, rfl, fun s => ?_,
    fun s ab rest => ?_, fun s => ?_⟩
  · exact (congrArg BitVec.toNat (allZero_reset.blk i hi)).le
  · exact iff_of_true (Nat.zero_le c) (Nat.two_pow_pos c)
  · exact answers_of_eq (exec_srst s) { allZero_cleared s with }
  · exact answers_of_eq rfl (allZero_cleared _)
  · exact idrValue_eq ▸ peek_addr s .idr

/-! ### Nothing is hidden (rule R33) -/

/-- A plane is its four bus words (rule R54). -/
theorem plane_ext {W X : PlaneWord} (h : ∀ k : Fin 4, planeWordAt W k = planeWordAt X k) : W = X := by
  apply BitVec.eq_of_getLsbD_eq
  intro n hn
  have hk := congrArg (fun w : Word => w.getLsbD (n % 32)) (h ⟨n / 32, by omega⟩)
  simpa only [planeWordAt_getLsbD _ _ _ (Nat.mod_lt n (by decide : 0 < 32)), Nat.div_add_mod] using hk

theorem status_word_injective {st st' : Status} (h : st.word = st'.word) : st = st' := by
  have hbit (n : Nat) : st.word.getLsbD n = st'.word.getLsbD n := by rw [h]
  simp only [status_word_getLsbD] at hbit
  exact Status.ext (by simpa using hbit 0) (by simpa using hbit 1) (by simpa using hbit 2) (by simpa using hbit 8)

/-- Settles O40: the states read the same at every location, and each part of the state is known by what its locations
read. -/
theorem everyPieceOfStateIsReadable : Obligations.EveryPieceOfStateIsReadable := by
  intro s t h
  have hl (l : Location) : readLocation s l = readLocation t l := by
    simpa only [peek_addr, Option.some.injEq] using h l.addr
  refine ⟨Vector.ext fun i hi => hl (.blk ⟨i, hi⟩), Vector.ext fun p hp => plane_ext fun k => hl (.pln ⟨p, hp⟩ k),
    hl .offset, ?_, hl .maxv, status_word_injective (hl .status)⟩
  simpa [readLocation] using congrArg (BitVec.setWidth 6) (hl .width)

end Sys2Proof.Machine
end

section
/-! PROOFS. What a command reads and what it changes (rules R21, R23, R34): its results depend on its named inputs
alone, and every word of the window outside those it is said to write reads as before. -/

namespace Sys2Proof.Machine

/-! ### What a command reads -/

theorem encodedBlock_congr {d : Bool} {s s' : State} (hblk : s'.blk = s.blk)
    (hoff : d = true → s'.offset = s.offset) : encodedBlock d s' = encodedBlock d s := by
  cases d with
  | false => exact hblk
  | true => exact congrArg₂ deltas hblk (hoff rfl)

theorem decodedBlock_congr {d : Bool} (G : Block) {s s' : State} (hoff : d = true → s'.offset = s.offset) :
    decodedBlock d G s' = decodedBlock d G s := by
  cases d with
  | false => rfl
  | true => exact congrArg (runningSum G) (hoff rfl)

/-- Planes b and above are not gathered (rule R135). -/
theorem gather_congr {P P' : Planes} {b : Nat} (h : ∀ (p : Nat) (_ : p < 32), p < b → P'[p] = P[p]) :
    gather P' b = gather P b := by
  refine Vector.ext fun i hi => BitVec.eq_of_getLsbD_eq fun p hp => ?_
  rw [gather_getLsbD _ _ _ _ hi hp, gather_getLsbD _ _ _ _ hi hp]
  by_cases hb : p < b
  · rw [h p hp hb]
  · simp [hb]

/-- The planes and the TRUNC of a pack come from its encoded block and its width (rules R125, R128). -/
theorem packAt_congr {d : Bool} {b : Nat} {s s' : State} (hb : b ≤ 32)
    (hE : encodedBlock d s' = encodedBlock d s) :
    (∀ (p : Nat) (_ : p < 32), p < b → (packAt d b s').pln[p] = (packAt d b s).pln[p]) ∧
      (s'.status.trunc = s.status.trunc → (packAt d b s').status.trunc = (packAt d b s).status.trunc) := by
  rw [packAt_of_le hb, packAt_of_le hb, hE]
  constructor
  · intro p hp hpb
    simp [packInto_getElem, hpb]
  · intro ht
    simp [ht]

theorem unpackAt_blk_congr {d : Bool} {b : Nat} {s s' : State} (hb : b ≤ 32)
    (hpln : ∀ (p : Nat) (_ : p < 32), p < b → s'.pln[p] = s.pln[p]) (hoff : d = true → s'.offset = s.offset) :
    (unpackAt d b s').blk = (unpackAt d b s).blk := by
  rw [unpackAt_of_le hb, unpackAt_of_le hb, gather_congr hpln]
  exact decodedBlock_congr _ hoff

/-- Settles O45: each result is a function of the inputs the rule names. -/
theorem commandsReadOnlyNamedInputs : Obligations.CommandsReadOnlyNamedInputs := by
  intro s s'
  refine ⟨fun hblk => ?_, fun hblk hoff => ?_, fun i j d b hi hj hb hblk hoff => ?_,
    fun i j d b hi hj hb hpln hoff => ?_, fun hblk hoff => ?_, fun hblk hoff => ?_, ?_⟩
  · refine answers_of_eq (exec_analyze s) (answers_of_eq (exec_analyze s') ?_)
    simp [hblk]
  · refine answers_of_eq (exec_analyzeD s) (answers_of_eq (exec_analyzeD s') ?_)
    simp [hblk, hoff]
  · exact answers_of_eq (exec_of_packsAt hi) (answers_of_eq (exec_of_packsAt hj)
      (packAt_congr hb (encodedBlock_congr hblk hoff)))
  · exact answers_of_eq (exec_of_unpacksAt hi) (answers_of_eq (exec_of_unpacksAt hj)
      (unpackAt_blk_congr hb hpln hoff))
  · exact answers_of_eq (exec_delta s) (answers_of_eq (exec_delta s') (congrArg₂ deltas hblk hoff))
  · exact answers_of_eq (exec_undelta s) (answers_of_eq (exec_undelta s') (congrArg₂ runningSum hblk hoff))
  · exact answers_of_eq (exec_srst s) (answers_of_eq (exec_srst s') ⟨rfl, rfl, rfl, rfl, rfl, rfl⟩)

/-! ### What a command changes -/

theorem blkAddr_toNat_lt (i : Fin 128) : (blkAddr i.val).toNat < 0x200 := by
  rw [blkAddr, BitVec.toNat_ofNat]
  omega

theorem plnAddr_toNat (p : Fin 32) (k : Fin 4) : (plnAddr p.val k.val).toNat = 0x200 + 16 * p.val + 4 * k.val := by
  rw [plnAddr, BitVec.toNat_ofNat]
  omega

section
variable {s : State} {a : Addr}

theorem peek_complete : peek (complete s) a = peek s a :=
  peek_congr fun l _ => by cases l <;> rfl

theorem peek_analyzeBlock (E : Block) (hw : a ≠ widthAddr) (hm : a ≠ maxvAddr) :
    peek (analyzeBlock E s) a = peek s a :=
  peek_congr fun l hl => by
    cases l with
    | width => exact absurd hl hw
    | maxv => exact absurd hl hm
    | blk | pln | cmd | status | offset | idr => rfl

theorem peek_raise (f : PortFault) (hs : a ≠ statusAddr) : peek (raise f s) a = peek s a :=
  peek_congr fun l hl => by
    cases l with
    | status => exact absurd hl hs
    | blk | pln | cmd | offset | width | maxv | idr => rfl

theorem peek_withBlk (B : Block) (ha : 0x200 ≤ a.toNat) : peek (complete { s with blk := B }) a = peek s a :=
  peek_congr fun l hl => by
    cases l with
    | blk i =>
      have hlt : a.toNat < 0x200 := hl ▸ blkAddr_toNat_lt i
      omega
    | pln | cmd | status | offset | width | maxv | idr => rfl

theorem peek_packAt (d : Bool) {b : Nat} (hs : a ≠ statusAddr)
    (hp : ¬ (b ≤ 32 ∧ 0x200 ≤ a.toNat ∧ a.toNat < 0x200 + 16 * b)) : peek (packAt d b s) a = peek s a := by
  rcases Nat.lt_or_ge 32 b with h | h
  · exact packAt_of_gt h d s ▸ peek_raise _ hs
  · rw [packAt_of_le h]
    refine peek_congr fun l hl => ?_
    cases l with
    | status => exact absurd hl hs
    | pln p k =>
      have ha : a.toNat = 0x200 + 16 * p.val + 4 * k.val := hl ▸ plnAddr_toNat p k
      have hpb : ¬ p.val < b := by omega
      simp [readLocation, packInto_getElem, hpb]
    | blk | cmd | offset | width | maxv | idr => rfl

theorem peek_unpackAt (d : Bool) {b : Nat} (ha : 0x200 ≤ a.toNat) (hs : a = statusAddr → b ≤ 32) :
    peek (unpackAt d b s) a = peek s a := by
  rcases Nat.lt_or_ge 32 b with h | h
  · exact unpackAt_of_gt h d s ▸ peek_raise _ fun e => Nat.not_le.mpr h (hs e)
  · exact unpackAt_of_le h d s ▸ peek_withBlk _ ha

end

/-- Settles O46: each command from what its operation leaves readable. -/
theorem commandsChangeOnlyTheirWords : Obligations.CommandsChangeOnlyTheirWords := by
  intro s a
  refine ⟨?_, fun hw hm => ⟨?_, ?_⟩, fun i d b hi hs hp => ?_, fun i d b hi ha hs => ?_, fun ha => ⟨?_, ?_⟩⟩
  · exact answers_of_eq (exec_nop s) peek_complete
  · exact answers_of_eq (exec_analyze s) (peek_analyzeBlock _ hw hm)
  · exact answers_of_eq (exec_analyzeD s) (peek_analyzeBlock _ hw hm)
  · exact answers_of_eq (exec_of_packsAt hi) (peek_packAt d hs hp)
  · exact answers_of_eq (exec_of_unpacksAt hi) (peek_unpackAt d ha hs)
  · exact answers_of_eq (exec_delta s) (peek_withBlk _ ha)
  · exact answers_of_eq (exec_undelta s) (peek_withBlk _ ha)

end Sys2Proof.Machine
end

section
/-! PROOFS. The window as the host's memory (rules R53, R54, R57, R58, R60, R62): what a transaction does to the word it
names and to every other word, said of each location and then of the addresses, and the planes as bytes. -/

namespace Sys2Proof.Machine

/-! ### BLK and PLN word by word (rules R53, R54) -/

/-- Settles O31: 4*i is the address of BLK[i]. -/
theorem blkEntriesReadAndWriteAtFourI : Obligations.BlkEntriesReadAndWriteAtFourI := fun s i hi v =>
  ⟨step_read_addr (.blk ⟨i, hi⟩) s, answers_of_eq (step_write_addr (.blk ⟨i, hi⟩) v s)
    ⟨Vector.getElem_set_self hi, fun _ hj hne => Vector.getElem_set_ne hi hj hne.symm, rfl⟩⟩

/-- Settles O32: 0x200 + 16*p + 4*k is the address of word k of PLN[p], whose bits `planeWordAt_getLsbD` and
`withPlaneWord_getLsbD` give. -/
theorem planeWordsReadAndWriteInQuarters : Obligations.PlaneWordsReadAndWriteInQuarters := by
  intro s p hp k hk v
  constructor
  · exact answers_of_eq (step_read_addr (.pln ⟨p, hp⟩ ⟨k, hk⟩) s)
      ⟨planeWordAt s.pln[p] k, planeWordAt_getLsbD s.pln[p] k, rfl⟩
  · refine answers_of_eq (step_write_addr (.pln ⟨p, hp⟩ ⟨k, hk⟩) v s)
      ⟨fun j hj => ?_, fun q hq hne => Vector.getElem_set_ne hp hq hne.symm, rfl⟩
    have hset : (s.pln.set p (withPlaneWord s.pln[p] k v))[p] = withPlaneWord s.pln[p] k v := Vector.getElem_set_self hp
    exact (congrArg (BitVec.getLsbD · j) hset).trans (withPlaneWord_getLsbD _ _ _ _ hj)

/-! ### What repeating a transaction does (rule R60) -/

theorem step_read (a : Addr) (s : State) : step (s.issuing (.read a)) = .next (busRead a s) := rfl

theorem step_write (a : Addr) (v : Word) (s : State) : step (s.issuing (.write a v)) = busWrite a v s := rfl

theorem busRead_of_peek_eq_some {a : Addr} {s : State} {v : Word} (h : peek s a = some v) :
    busRead a s = respond v s := by simp [busRead, h]

theorem busRead_of_peek_eq_none {a : Addr} {s : State} (h : peek s a = none) :
    busRead a s = raise .accessFault s := by simp [busRead, h]

theorem withPlaneWord_withPlaneWord (W : PlaneWord) (k : Nat) (v w : Word) :
    withPlaneWord (withPlaneWord W k v) k w = withPlaneWord W k w := by
  apply BitVec.eq_of_getLsbD_eq
  intro j hj
  simp only [withPlaneWord_getLsbD _ _ _ _ hj]
  split <;> rfl

theorem writeOneToClear_writeOneToClear (w : Word) (st : Status) :
    (st.writeOneToClear w).writeOneToClear w = st.writeOneToClear w := by
  simp [Status.writeOneToClear]

theorem setFault_setFault (f : PortFault) (st : Status) : (st.setFault f).setFault f = st.setFault f := by
  cases f <;> rfl

theorem raise_raise (f : PortFault) (s : State) : raise f (raise f s) = raise f s := by
  simp [raise, setFault_setFault]

/-- A write to any location but CMD, made twice, is the write made once. -/
theorem writeLocation_idempotent {l : Location} (hl : l ≠ .cmd) (v : Word) (s : State) :
    Answers (writeLocation l v s) fun t => writeLocation l v t = .next t := by
  cases l with
  | cmd => exact absurd rfl hl
  | blk i => exact answers_of_eq rfl (by simp [writeLocation, complete, respond])
  | pln p k => exact answers_of_eq rfl (by simp [writeLocation, complete, respond, withPlaneWord_withPlaneWord])
  | status => exact answers_of_eq rfl (by simp [writeLocation, complete, respond, writeOneToClear_writeOneToClear])
  | offset | width => exact answers_of_eq rfl rfl
  | maxv | idr => exact answers_of_eq rfl (congrArg Host.Outcome.next (raise_raise .accessFault s))

theorem busWrite_idempotent {a : Addr} (ha : a ≠ cmdAddr) (v : Word) (s : State) :
    Answers (busWrite a v s) fun t => busWrite a v t = .next t := by
  rcases busWrite_cases a v s with ⟨l, rfl, -⟩ | ⟨hbad, e⟩
  · simpa using writeLocation_idempotent (fun h => ha (congrArg Location.addr h)) v s
  · exact answers_of_eq e (by rw [busWrite_of_bad hbad, raise_raise])

/-- With an offset other than 0, lane 0 never stays what it was (rule R110). -/
theorem deltas_ne_self (V : Block) {off : Word} (h : off ≠ 0#32) : deltas V off ≠ V := by
  intro e
  have h0 : V[0] - off = V[0] := (deltas_zero V off).symm.trans (congrArg (fun B : Block => B[0]) e)
  exact h (by simpa using h0)

/-- Settles O38: a second DELTA changes BLK whenever OFFSET is not 0, as with OFFSET = 1 after reset. -/
theorem readsHaveNoEffectAndWritesAreIdempotent : Obligations.ReadsHaveNoEffectAndWritesAreIdempotent := by
  refine ⟨fun s a => ?_, fun s a v ha => busWrite_idempotent ha v s, { State.reset with offset := 1#32 }, ?_⟩
  · exact answers_of_eq (step_read a s) ⟨busRead_of_peek_eq_none, fun _ h => busRead_of_peek_eq_some h⟩
  · exact answers_of_eq (exec_delta _) (answers_of_eq (exec_delta _) (deltas_ne_self _ (by decide)))

/-! ### The window as a memory (rule R62) -/

/-- WIDTH keeps 6 bits of the word and reads them back with zeros above (rules R26, R32). -/
theorem setWidth_six_setWidth (v : Word) : (v.setWidth 6).setWidth 32 = v &&& 0x3F#32 := by
  have hmask : v.toNat &&& 63 = v.toNat % 64 := Nat.and_two_pow_sub_one_eq_mod v.toNat 6
  apply BitVec.eq_of_toNat_eq
  simp only [BitVec.toNat_setWidth, BitVec.toNat_and, BitVec.toNat_ofNat, Nat.reduceMod, Nat.reducePow, hmask]
  omega

/-- The word written is what the location then reads, WIDTH its low 6 bits. -/
theorem readLocation_writeLocation_same {l : Location}
    (hl : l.addr.toNat < 0x400 ∨ l.addr = 0x408#11 ∨ l.addr = 0x40C#11) (v : Word) (s : State) :
    Answers (writeLocation l v s) fun t =>
      readLocation t l = if l.addr = 0x40C#11 then v &&& 0x3F#32 else v := by
  cases l with
  | cmd | status | maxv | idr => exact absurd hl (by decide)
  | blk i =>
    have hne : (Location.blk i).addr ≠ Location.width.addr := fun h => nomatch addr_injective h
    exact answers_of_eq rfl ((Vector.getElem_set_self i.isLt).trans (if_neg hne).symm)
  | pln p k =>
    have hne : (Location.pln p k).addr ≠ Location.width.addr := fun h => nomatch addr_injective h
    refine answers_of_eq rfl (Eq.trans ?_ (if_neg hne).symm)
    exact (congrArg (planeWordAt · k) (Vector.getElem_set_self p.isLt)).trans (planeWordAt_withPlaneWord _ k v)
  | offset => exact answers_of_eq rfl rfl
  | width => exact answers_of_eq rfl (setWidth_six_setWidth v)

/-- Every other location reads as before. -/
theorem readLocation_writeLocation_of_ne {l : Location}
    (hl : l.addr.toNat < 0x400 ∨ l.addr = 0x408#11 ∨ l.addr = 0x40C#11) (v : Word) (s : State) :
    Answers (writeLocation l v s) fun t => ∀ m : Location, m ≠ l → readLocation t m = readLocation s m := by
  cases l with
  | cmd | status | maxv | idr => exact absurd hl (by decide)
  | blk i =>
    refine answers_of_eq rfl fun m hm => ?_
    cases m with
    | blk j => exact Vector.getElem_set_ne i.isLt j.isLt fun h => hm (congrArg Location.blk (Fin.ext h.symm))
    | pln | cmd | status | offset | width | maxv | idr => rfl
  | pln p k =>
    refine answers_of_eq rfl fun m hm => ?_
    cases m with
    | pln q n =>
      rcases eq_or_ne q p with rfl | hq
      · have hn : n ≠ k := fun h => hm (congrArg (Location.pln q) h)
        exact (congrArg (planeWordAt · n) (Vector.getElem_set_self q.isLt)).trans
          (planeWordAt_withPlaneWord_of_ne _ hn v)
      · exact congrArg (planeWordAt · n) (Vector.getElem_set_ne p.isLt q.isLt fun h => hq (Fin.ext h.symm))
    | blk | cmd | status | offset | width | maxv | idr => rfl
  | offset =>
    refine answers_of_eq rfl fun m hm => ?_
    cases m with
    | offset => exact absurd rfl hm
    | blk | pln | cmd | status | width | maxv | idr => rfl
  | width =>
    refine answers_of_eq rfl fun m hm => ?_
    cases m with
    | width => exact absurd rfl hm
    | blk | pln | cmd | status | offset | maxv | idr => rfl

theorem answers_and {o : Host.Outcome State Fault Refusal} {P Q : State → Prop} (hP : Answers o P)
    (hQ : Answers o Q) : Answers o fun t => P t ∧ Q t := by
  obtain ⟨t, rfl, hPt⟩ := hP
  obtain ⟨u, hu, hQu⟩ := hQ
  obtain rfl := Host.Outcome.next.inj hu
  exact ⟨t, rfl, hPt, hQu⟩

/-- Settles O39: the address is that of a location that stores its word. -/
theorem writtenWordReadsBackAndOthersKeep : Obligations.WrittenWordReadsBackAndOthersKeep := by
  intro s a v h4 ha
  rcases busWrite_cases a v s with ⟨l, rfl, -⟩ | ⟨hbad, -⟩
  · obtain ⟨t, ht, hback, hkeep⟩ :=
      answers_and (readLocation_writeLocation_same ha v s) (readLocation_writeLocation_of_ne ha v s)
    refine answers_of_eq ((step_write_addr l v s).trans ht) ⟨by rw [peek_addr, hback], fun a' ha' => ?_⟩
    exact peek_congr fun m hm => hkeep m fun h => ha' (hm.trans (congrArg Location.addr h))
  · have hlt : a.toNat < 0x418 := by
      rcases ha with h | rfl | rfl
      · omega
      · decide
      · decide
    omega

/-! ### The planes as bytes (rules R57, R58) -/

/-- In the concatenation of lists of one length c, entry n is entry n mod c of list n div c. -/
theorem getElem?_flatMap_of_length_eq {α β : Type} {f : α → List β} {c : Nat} (hc : 0 < c)
    (hf : ∀ x, (f x).length = c) (l : List α) (n : Nat) :
    (l.flatMap f)[n]? = l[n / c]?.bind fun x => (f x)[n % c]? := by
  induction l generalizing n with
  | nil => simp
  | cons x xs ih =>
    rw [List.flatMap_cons, List.getElem?_append, hf]
    split
    · next h => simp [Nat.div_eq_of_lt h, Nat.mod_eq_of_lt h]
    · next h =>
      have hn := Nat.not_lt.mp h
      rw [ih, ← Nat.mod_eq_sub_mod hn, Nat.div_eq_sub_div hc hn, List.getElem?_cons_succ]

theorem length_serialise (P : Planes) {b : Nat} (hb : b ≤ 32) : (serialise P b).length = 16 * b := by
  simp only [serialise, List.length_flatMap, List.length_map, List.length_range, List.map_const',
    List.sum_replicate_nat, List.length_take, Vector.length_toList]
  omega

theorem getElem?_serialise (P : Planes) {b n : Nat} (hn : n < 16 * b) :
    (serialise P b)[n]? = P[n / 16]?.map (planeByteAt · (n % 16)) := by
  have hp : n / 16 < b := by omega
  have hm : n % 16 < 16 := Nat.mod_lt n (by decide)
  rw [serialise, getElem?_flatMap_of_length_eq (c := 16) (by decide) (by simp)]
  simp [hp, hm, Option.map_eq_bind]

/-- Byte m of word k of a plane is byte 4*k + m of the plane (rules R54, R57). -/
theorem planeWordAt_extract_byte (W : PlaneWord) (k : Nat) {m : Nat} (hm : m < 4) :
    (planeWordAt W k).extractLsb' (8 * m) 8 = planeByteAt W (4 * k + m) := by
  apply BitVec.eq_of_getLsbD_eq
  intro j hj
  rw [BitVec.getLsbD_extractLsb', planeWordAt_getLsbD _ _ _ (by omega), planeByteAt, BitVec.getLsbD_extractLsb']
  congr 2
  omega

/-- The word at 0x200 + 4*n, counted over all planes, is word n mod 4 of plane n div 4 (rule R54). -/
theorem peek_plane_word (s : State) {n : Nat} (hn : n < 128) :
    peek s (BitVec.ofNat 11 (0x200 + 4 * n)) = some (planeWordAt s.pln[n / 4] (n % 4)) := by
  have e : 0x200 + 4 * n = 0x200 + 16 * (n / 4) + 4 * (n % 4) := by omega
  rw [e]
  exact peek_addr s (.pln ⟨n / 4, by omega⟩ ⟨n % 4, by omega⟩)

/-- Settles O41: byte n is byte n mod 16 of its plane, which is byte n mod 4 of the plane's bus word. -/
theorem serialisationIsLittleEndianPlaneOrder : Obligations.SerialisationIsLittleEndianPlaneOrder := by
  intro s b hb
  refine ⟨length_serialise s.pln hb, fun n hn => ⟨getElem?_serialise s.pln hn, ?_⟩⟩
  have hp : n / 4 / 4 = n / 16 := Nat.div_div_eq_div_mul n 4 4
  have hbyte : 4 * (n / 4 % 4) + n % 4 = n % 16 := by omega
  have hlt : n / 16 < 32 := by omega
  rw [getElem?_serialise s.pln hn, peek_plane_word s (by omega), Option.map_some,
    planeWordAt_extract_byte _ _ (Nat.mod_lt n (by decide)), hbyte]
  simp [hp, hlt]

end Sys2Proof.Machine
end

section
/-! PROOFS. The command word (rules R80 to R84, R87, R161): the legal words are the encodings of the well-formed
commands (`decode_eq_ok_iff`), and from that the rows of the table, their number, and what a write to CMD does. -/

namespace Sys2Proof

/-! ### Decoding and encoding are inverse (rule R87) -/

theorem decode_encode {c : Instr} (h : c.WellFormed) : decode (encode c) = .ok c := by
  cases c with
  | packI b | packID b | unpackI b | unpackID b =>
    simp [encode, decode_commandWord, decodeFields, toNat_ofNat_immediate h]
  | nop | analyze | analyzeD | pack | packD | unpack | unpackD | delta | undelta | srst => rfl

/-- Only an immediate form can be ill-formed, and its width is the one given. -/
theorem wellFormed_of_decodeFields {op : BitVec 4} {d i : Bool} {b : Nat} {c : Instr} (hb : b < 64)
    (h : decodeFields op d i b = .ok c) : c.WellFormed := by
  unfold decodeFields at h
  split at h
  case h_1 | h_5 | h_6 | h_7 => obtain ⟨-, -, rfl⟩ := plainOnly_eq_ok h; trivial
  case h_2 => cases i <;> cases d <;> cases h <;> trivial
  case h_3 | h_4 =>
    cases i with
    | false => cases d <;> cases h <;> trivial
    | true => cases d <;> cases h <;> exact hb
  case h_8 => cases h

theorem wellFormed_of_decode {w : Word} {c : Instr} (h : decode w = .ok c) : c.WellFormed := by
  unfold decode at h
  split at h
  · cases h
  split at h
  · cases h
  · exact wellFormed_of_decodeFields (bimmField w).isLt h

/-- The legal words are the encodings of the well-formed commands. -/
theorem decode_eq_ok_iff {w : Word} {c : Instr} : decode w = .ok c ↔ c.WellFormed ∧ encode c = w := by
  constructor
  · intro h
    exact ⟨wellFormed_of_decode h, encode_eq_of_decode h⟩
  · rintro ⟨hc, rfl⟩
    exact decode_encode hc

/-- Settles O25: `decode_eq_ok_iff` in its two directions. -/
theorem decodeAndEncodeAgree : Obligations.DecodeAndEncodeAgree :=
  ⟨fun _ => decode_encode, fun _ _ => decode_eq_ok_iff.mp⟩

/-! ### The illegal words (rule R84) -/

theorem exists_plainOnly_eq_error_iff (d i : Bool) (c : Instr) :
    (∃ e, plainOnly d i c = .error e) ↔ d = true ∨ i = true := by
  cases d <;> cases i <;> simp [plainOnly]

/-- Clauses (c), (d) and (e) of rule R84. -/
theorem exists_decodeFields_eq_error_iff (op : BitVec 4) (d i : Bool) (b : Nat) :
    (∃ e, decodeFields op d i b = .error e) ↔
      (0x6 ≤ op.toNat ∧ op.toNat ≤ 0xE) ∨
      ((op.toNat = 0x0 ∨ op.toNat = 0x4 ∨ op.toNat = 0x5 ∨ op.toNat = 0xF) ∧ (d = true ∨ i = true)) ∨
      (op.toNat = 0x1 ∧ i = true) := by
  have hop := op.isLt
  unfold decodeFields
  split
  case h_1 hk | h_5 hk | h_6 hk | h_7 hk => simp [hk, exists_plainOnly_eq_error_iff]
  case h_2 hk => cases i <;> simp [hk]
  case h_3 hk | h_4 hk => simp [hk]
  case h_8 =>
    have hk : 0x6 ≤ op.toNat ∧ op.toNat ≤ 0xE := by simp only [imp_false] at *; omega
    exact iff_of_true ⟨_, rfl⟩ (.inl hk)

theorem opField_toNat (w : Word) : (opField w).toNat = w.toNat % 16 := by simp [opField]

theorem bimmField_toNat (w : Word) : (bimmField w).toNat = w.toNat / 2 ^ 8 % 64 := by
  simp [bimmField, Nat.shiftRight_eq_div_pow]

theorem lowReserved_toNat (w : Word) : (lowReserved w).toNat = w.toNat / 2 ^ 6 % 4 := by
  simp [lowReserved, Nat.shiftRight_eq_div_pow]

theorem highReserved_toNat (w : Word) : (highReserved w).toNat = w.toNat / 2 ^ 14 := by
  have hlt : w.toNat / 2 ^ 14 < 2 ^ 18 := Nat.div_lt_of_lt_mul w.isLt
  rw [highReserved, BitVec.extractLsb'_toNat, Nat.shiftRight_eq_div_pow, Nat.mod_eq_of_lt hlt]

/-- `decode` checks clause (a), then (b), then the others. -/
theorem exists_decode_eq_error_iff (w : Word) :
    (∃ e, decode w = .error e) ↔
      (highReserved w ≠ 0 ∨ lowReserved w ≠ 0) ∨ (immediateField w = false ∧ bimmField w ≠ 0) ∨
      ∃ e, decodeFields (opField w) (deltaField w) (immediateField w) (bimmField w).toNat = .error e := by
  unfold decode
  split
  · next ha => exact iff_of_true ⟨_, rfl⟩ (.inl ha)
  split
  · next hb => exact iff_of_true ⟨_, rfl⟩ (.inr (.inl hb))
  · next ha hb => simp only [ha, hb, false_or]

/-- Settles O26: the clauses are those of `decode`, each field read as a number. -/
theorem illegalWordsAreExactlyTheFiveClauses : Obligations.IllegalWordsAreExactlyTheFiveClauses := by
  constructor
  · intro w
    rw [exists_decode_eq_error_iff, exists_decodeFields_eq_error_iff]
    simp only [ne_eq, ← BitVec.toNat_inj, highReserved_toNat, lowReserved_toNat, bimmField_toNat, opField_toNat]
    rfl
  · intro b _ hb
    have hfits : Instr.immediateFits b := Nat.lt_succ_of_le hb
    exact ⟨decode_encode hfits, decode_encode hfits, decode_encode hfits, decode_encode hfits⟩

/-! ### The rows of the table (rule R83) -/

/-- The mask of the immediate forms leaves out BIMM alone. -/
theorem immediateMask_getLsbD {n : Nat} (hn : n < 32) :
    (0xFFFFC0FF#32).getLsbD n = !decide (8 ≤ n ∧ n < 14) := by
  have h : ∀ m : Fin 32, (0xFFFFC0FF#32).getLsbD m.val = !decide (8 ≤ m.val ∧ m.val < 14) := by decide
  exact h ⟨n, hn⟩

/-- BIMM is [13:8], and no other bit of the word depends on it (rule R81). -/
theorem commandWord_getLsbD_bimm (op : BitVec 4) (d i : Bool) (b : BitVec 6) (n : Nat) :
    (commandWord op d i b).getLsbD n =
      if 8 ≤ n ∧ n < 14 then b.getLsbD (n - 8) else (commandWord op d i 0#6).getLsbD n := by
  simp only [commandWord_getLsbD, BitVec.getLsbD_zero]
  by_cases h : 8 ≤ n ∧ n < 14
  · simp [h, show ¬ n < 4 by omega, show n ≠ 4 by omega, show n ≠ 5 by omega, show ¬ n < 8 by omega]
  · rw [if_neg h]
    rcases Nat.lt_or_ge n 8 with h8 | h8
    · simp [h8]
    · rw [BitVec.getLsbD_of_ge b (n - 8) (by omega)]

/-- A word is laid out from given fields exactly when it is so under the mask and BIMM is the one given. -/
theorem commandWord_eq_iff (op : BitVec 4) (d i : Bool) (b : BitVec 6) (w : Word) :
    commandWord op d i b = w ↔ w &&& 0xFFFFC0FF#32 = commandWord op d i 0#6 ∧ bimmField w = b := by
  constructor
  · rintro rfl
    refine ⟨BitVec.eq_of_getLsbD_eq fun n hn => ?_, bimmField_commandWord op d i b⟩
    rw [BitVec.getLsbD_and, immediateMask_getLsbD hn, commandWord_getLsbD_bimm op d i b,
      commandWord_getLsbD_bimm op d i 0#6]
    by_cases h : 8 ≤ n ∧ n < 14 <;> simp [h]
  · rintro ⟨hmask, rfl⟩
    refine BitVec.eq_of_getLsbD_eq fun n hn => ?_
    rw [commandWord_getLsbD_bimm]
    split
    · next h => simp [bimmField, show n - 8 < 6 by omega, show 8 + (n - 8) = n by omega]
    · next h => simp [← hmask, immediateMask_getLsbD hn, h]

/-- BIMM is laid over the word whose BIMM is 0. -/
theorem commandWord_eq_or (op : BitVec 4) (d i : Bool) (b : BitVec 6) :
    commandWord op d i b = commandWord op d i 0#6 ||| b.setWidth 32 <<< 8 := by
  refine BitVec.eq_of_getLsbD_eq fun n hn => ?_
  rw [BitVec.getLsbD_or, BitVec.getLsbD_shiftLeft, BitVec.getLsbD_setWidth, commandWord_getLsbD_bimm,
    commandWord_getLsbD_bimm op d i 0#6]
  split
  · next h => simp [hn, show ¬ n < 8 by omega, show n - 8 < 32 by omega]
  · next h =>
    rcases Nat.lt_or_ge n 8 with h8 | h8
    · simp [h8]
    · simp [BitVec.getLsbD_of_ge b (n - 8) (by omega)]

theorem decode_eq_ok_iff_of_encode_eq {c : Instr} {m : Word} (hc : c.WellFormed) (hm : encode c = m) (w : Word) :
    decode w = .ok c ↔ w &&& 0xFFFFFFFF#32 = m := by
  have hall : w &&& 0xFFFFFFFF#32 = w := BitVec.and_allOnes
  rw [decode_eq_ok_iff, hall, hm]
  exact (and_iff_right hc).trans eq_comm

/-- `f` gives the commands of the immediate row whose fields are OP and D. -/
def ImmediateForms (f : Nat → Instr) (op : BitVec 4) (d : Bool) : Prop :=
  ∀ b, ((f b).WellFormed ↔ b < 64) ∧ encode (f b) = commandWord op d true (BitVec.ofNat 6 b)

theorem immediateForms_packI : ImmediateForms .packI 0x2#4 false := fun _ => ⟨.rfl, rfl⟩
theorem immediateForms_packID : ImmediateForms .packID 0x2#4 true := fun _ => ⟨.rfl, rfl⟩
theorem immediateForms_unpackI : ImmediateForms .unpackI 0x3#4 false := fun _ => ⟨.rfl, rfl⟩
theorem immediateForms_unpackID : ImmediateForms .unpackID 0x3#4 true := fun _ => ⟨.rfl, rfl⟩

section
variable {f : Nat → Instr} {op : BitVec 4} {d : Bool} {m : Word} (hf : ImmediateForms f op d)
  (hm : commandWord op d true 0#6 = m)
include hf hm

theorem exists_decode_eq_immediate_iff (w : Word) : (∃ b, decode w = .ok (f b)) ↔ w &&& 0xFFFFC0FF#32 = m := by
  have hrow (b : Nat) : decode w = .ok (f b) ↔ b < 64 ∧ w &&& 0xFFFFC0FF#32 = m ∧ bimmField w = BitVec.ofNat 6 b := by
    rw [decode_eq_ok_iff, (hf b).1, (hf b).2, commandWord_eq_iff, hm]
  simp only [hrow]
  constructor
  · rintro ⟨b, -, h, -⟩
    exact h
  · intro h
    exact ⟨(bimmField w).toNat, (bimmField w).isLt, h, by simp⟩

theorem decode_match_or_immediate {b : Nat} (hb : b < 64) : decode (m ||| BitVec.ofNat 32 b <<< 8) = .ok (f b) := by
  have hword : (BitVec.ofNat 6 b).setWidth 32 = BitVec.ofNat 32 b := BitVec.setWidth_ofNat_of_le_of_lt (by decide) hb
  exact decode_eq_ok_iff.mpr ⟨(hf b).1.mpr hb, by rw [(hf b).2, commandWord_eq_or, hm, hword]⟩

end

/-- Settles O27: each row is the word of its command, and the mask of an immediate row leaves out BIMM. -/
theorem tableRowsByMaskAndMatch : Obligations.TableRowsByMaskAndMatch := by
  refine ⟨fun w => ⟨?nop, ?analyze, ?analyzeD, ?pack, ?packD, ?packI, ?packID, ?unpack, ?unpackD, ?unpackI, ?unpackID,
    ?delta, ?undelta, ?srst⟩, fun b hb => ⟨?_, ?_, ?_, ?_⟩⟩
  case packI => exact exists_decode_eq_immediate_iff immediateForms_packI rfl w
  case packID => exact exists_decode_eq_immediate_iff immediateForms_packID rfl w
  case unpackI => exact exists_decode_eq_immediate_iff immediateForms_unpackI rfl w
  case unpackID => exact exists_decode_eq_immediate_iff immediateForms_unpackID rfl w
  case nop | analyze | analyzeD | pack | packD | unpack | unpackD | delta | undelta | srst =>
    exact decode_eq_ok_iff_of_encode_eq trivial rfl w
  · exact decode_match_or_immediate immediateForms_packI rfl hb
  · exact decode_match_or_immediate immediateForms_packID rfl hb
  · exact decode_match_or_immediate immediateForms_unpackI rfl hb
  · exact decode_match_or_immediate immediateForms_unpackID rfl hb

/-! ### The number of legal words (rule R83) -/

/-- The commands without an operand. -/
def plainInstrs : List Instr :=
  [.nop, .analyze, .analyzeD, .pack, .packD, .unpack, .unpackD, .delta, .undelta, .srst]

/-- The four commands with the operand b. -/
def immediateInstrs (b : Nat) : List Instr := [.packI b, .packID b, .unpackI b, .unpackID b]

/-- Every well-formed command: 10 without an operand, and 4 with each of the 64 operands. -/
def wellFormedInstrs : List Instr := plainInstrs ++ (List.range 64).flatMap immediateInstrs

theorem mem_wellFormedInstrs_iff (c : Instr) : c ∈ wellFormedInstrs ↔ c.WellFormed := by
  cases c <;> simp [wellFormedInstrs, plainInstrs, immediateInstrs]

theorem length_wellFormedInstrs : wellFormedInstrs.length = 266 := by
  simp [wellFormedInstrs, plainInstrs, immediateInstrs]

theorem nodup_wellFormedInstrs : wellFormedInstrs.Nodup := by
  refine List.Nodup.append (by decide) (List.nodup_flatMap.mpr ⟨fun b _ => ?_, ?_⟩) ?_
  · simp [immediateInstrs]
  · exact List.nodup_range.imp fun hne => by simp [Function.onFun, immediateInstrs, hne.symm]
  · simp [plainInstrs, immediateInstrs]

/-- Settles O28: the legal words are the encodings of the 266 well-formed commands, and no two of them encode alike. -/
theorem legalWordsNumber266 : Obligations.LegalWordsNumber266 := by
  refine ⟨wellFormedInstrs.map encode, ?_, by rw [List.length_map, length_wellFormedInstrs], fun w => ?_⟩
  · refine nodup_wellFormedInstrs.map_on fun c hc c' hc' he => ?_
    have h : decode (encode c) = .ok c := decode_encode ((mem_wellFormedInstrs_iff c).mp hc)
    have h' : decode (encode c') = .ok c' := decode_encode ((mem_wellFormedInstrs_iff c').mp hc')
    exact Except.ok.inj (h.symm.trans (he ▸ h'))
  · simp only [decode_eq_ok_iff, List.mem_map, mem_wellFormedInstrs_iff]

/-- Settles O29: the words are evaluated. -/
theorem sampleWordsDecodeAsListed : Obligations.SampleWordsDecodeAsListed := by
  unfold Obligations.SampleWordsDecodeAsListed
  decide

end Sys2Proof

namespace Sys2Proof.Machine

/-! ### What a write to CMD does (rules R80, R161) -/

theorem step_command {w : Word} {c : Instr} (h : decode w = .ok c) (s : State) :
    step (s.issuing (.write cmdAddr w)) = exec c s := (step_write_addr .cmd w s).trans (writeCmd_of_ok h s)

theorem step_illegal_command {w : Word} {e : IllegalWord} (h : decode w = .error e) (s : State) :
    step (s.issuing (.write cmdAddr w)) = .next (raise .illegalCommand s) :=
  (step_write_addr .cmd w s).trans (writeCmd_of_error h s)

theorem decodeTableWord_eq_some {nbits w : Nat} {c : Instr} (h : decodeTableWord nbits w = some c) :
    decode (tableWord nbits w) = .ok c := by
  unfold decodeTableWord at h
  cases hd : decode (tableWord nbits w) with
  | ok c' => rw [hd] at h; exact congrArg Except.ok (Option.some.inj h)
  | error e => rw [hd] at h; cases h

/-- Settles O30: 0x400 is the address of CMD, and `withFetchWord` issues a write to it. -/
theorem stepRunsTheDecodedCommand : Obligations.StepRunsTheDecodedCommand :=
  ⟨fun s _ _ h => step_illegal_command h s, fun s _ _ h => step_command h s,
    fun s _ _ h => step_command (decodeTableWord_eq_some h) s⟩

end Sys2Proof.Machine
end

section
/-! PROOFS. The load lines of a listing (rule R89): a run over writes, each to a location that stores its word, serves
them one by one, and the writes of a line together store its operand. -/

namespace Sys2Proof.Machine

/-! ### Runs over writes -/

theorem run_succ_of_step {n : Nat} {s t : State} (h : step s = .next t) :
    Sys2Proof.core.run (n + 1) s = Sys2Proof.core.run n t := by
  have hcore : Sys2Proof.core.step s = .next t := h
  simp only [Host.Core.run.eq_def Sys2Proof.core (n + 1) s, hcore]

/-- The writes `as`, made one after the other. What they store to is a part `x` of the state `put x`, and `store x a` is
that part after the write `a`. -/
theorem run_writes {α β : Type} {loc : α → Location} {val : α → Word} {put : β → State} {store : β → α → β}
    (hstore : ∀ a x rest r, writeLocation (loc a) (val a) { put x with inbox := rest, rsp := r } =
      .next { put (store x a) with inbox := rest, rsp := writeDone })
    {as : List α} (has : as ≠ []) (x : β) (r : Option Response) :
    Sys2Proof.core.run as.length
        { put x with inbox := as.map fun a => .request (.write (loc a).addr (val a)), rsp := r } =
      .next { put (as.foldl store x) with inbox := [], rsp := writeDone } := by
  induction as generalizing x r with
  | nil => exact absurd rfl has
  | cons a as ih =>
    have hstep := (step_write_addr (loc a) (val a) { put x with inbox := _, rsp := r }).trans
      (hstore a x (as.map fun a => .request (.write (loc a).addr (val a))) r)
    refine (run_succ_of_step hstep).trans ?_
    cases as with
    | nil => rfl
    | cons a' as => exact ih (List.cons_ne_nil a' as) (store x a) writeDone

/-- Stores that each replace one entry leave in every entry the word of its store, where it had one. -/
theorem get_foldl_store {α β γ : Type} [DecidableEq α] {store : β → α → β} {get : β → α → γ} {val : α → γ}
    (hget : ∀ x a b, get (store x a) b = if b = a then val b else get x b) (as : List α) (x : β) (b : α) :
    get (as.foldl store x) b = if b ∈ as then val b else get x b := by
  induction as generalizing x with
  | nil => rfl
  | cons a as ih =>
    rw [List.foldl_cons, ih, hget]
    by_cases hb : b = a <;> simp [hb]

/-! ### What the writes of LDBLK and of LDPLN store -/

/-- A block after the write that loads lane i of `V`. -/
def storeLane (V B : Block) (i : Fin 128) : Block := B.set i V[i]

/-- A plane after the write that loads word k of `W`. -/
def storePlaneWord (W X : PlaneWord) (k : Fin 4) : PlaneWord := withPlaneWord X k.val (planeWordAt W k.val)

theorem storeLane_getElem (V B : Block) (i j : Fin 128) : (storeLane V B i)[j] = if j = i then V[j] else B[j] := by
  rcases eq_or_ne j i with rfl | hne
  · exact (Vector.getElem_set_self j.isLt).trans (if_pos rfl).symm
  · exact (Vector.getElem_set_ne i.isLt j.isLt fun h => hne (Fin.ext h.symm)).trans (if_neg hne).symm

theorem planeWordAt_storePlaneWord (W X : PlaneWord) (k m : Fin 4) :
    planeWordAt (storePlaneWord W X k) m.val = if m = k then planeWordAt W m.val else planeWordAt X m.val := by
  rcases eq_or_ne m k with rfl | hne
  · exact (planeWordAt_withPlaneWord X m _).trans (if_pos rfl).symm
  · exact (planeWordAt_withPlaneWord_of_ne X hne _).trans (if_neg hne).symm

theorem foldl_storeLane (V B : Block) : (List.finRange 128).foldl (storeLane V) B = V :=
  Vector.ext fun i hi => (get_foldl_store (get := fun B j => B[j]) (storeLane_getElem V) _ B ⟨i, hi⟩).trans
    (if_pos (List.mem_finRange _))

theorem foldl_storePlaneWord (W X : PlaneWord) : (List.finRange 4).foldl (storePlaneWord W) X = W :=
  plane_ext fun k => (get_foldl_store (get := fun X m => planeWordAt X m.val) (planeWordAt_storePlaneWord W) _ X k).trans
    (if_pos (List.mem_finRange _))

/-! ### The lines -/

section
variable {s : State} (hs : s.inbox = [])
include hs

theorem issue_eq_of_expand {line : Line} {ts : List Transaction} (hline : line.expand = ts) :
    s.issue [line] = { s with inbox := ts.map .request } := by
  simp [State.issue, hs, hline]

/-- A line that is one write. -/
theorem run_issue_write {line : Line} {l : Location} {v : Word} {t : State} (hline : line.expand = [.write l.addr v])
    (ht : writeLocation l v s = .next t) : Sys2Proof.core.run 1 (s.issue [line]) = .next t := by
  have hissue : s.issue [line] = s.issuing (.write l.addr v) := by
    rw [issue_eq_of_expand hs hline, State.issuing, hs]; rfl
  rw [hissue]
  exact run_succ_of_step ((step_write_addr l v s).trans ht)

/-- A line that is n writes, to the n parts of what it loads. -/
theorem run_issue_writes {line : Line} {n : Nat} [NeZero n] {loc : Fin n → Location} {val : Fin n → Word} {β : Type}
    {put : β → State} {store : β → Fin n → β}
    (hline : line.expand = (List.finRange n).map fun i => .write (loc i).addr (val i))
    (hstore : ∀ i x rest r, writeLocation (loc i) (val i) { put x with inbox := rest, rsp := r } =
      .next { put (store x i) with inbox := rest, rsp := writeDone })
    {x : β} (hx : put x = s) :
    Sys2Proof.core.run n (s.issue [line]) =
      .next { put ((List.finRange n).foldl store x) with inbox := [], rsp := writeDone } := by
  have hrun := run_writes hstore (List.ne_nil_of_mem (List.mem_finRange (0 : Fin n))) x s.rsp
  rw [List.length_finRange, hx] at hrun
  rw [issue_eq_of_expand hs hline, List.map_map]
  exact hrun

theorem run_issue_ldblk (V : Block) :
    Sys2Proof.core.run 128 (s.issue [.ldblk V]) = .next { s with blk := V, rsp := writeDone } := by
  have hrun := run_issue_writes hs (line := .ldblk V) (loc := .blk) (put := fun B => { s with blk := B })
    (store := storeLane V) rfl (fun _ _ _ _ => rfl) rfl
  rw [hrun, foldl_storeLane, hs]

theorem run_issue_ldpln (p : Fin 32) (W : PlaneWord) :
    Sys2Proof.core.run 4 (s.issue [.ldpln p W]) = .next { s with pln := s.pln.set p W, rsp := writeDone } := by
  have hstore (k : Fin 4) (X : PlaneWord) (rest : List HostEvent) (r : Option Response) :
      writeLocation (.pln p k) (planeWordAt W k.val) { s with pln := s.pln.set p X, inbox := rest, rsp := r } =
        .next { s with pln := s.pln.set p (storePlaneWord W X k), inbox := rest, rsp := writeDone } := by
    simp [writeLocation, complete, respond, storePlaneWord, writeDone]
  have hrun := run_issue_writes hs (line := .ldpln p W) (put := fun X => { s with pln := s.pln.set p X })
    (x := s.pln[p]) rfl hstore (by simp)
  rw [hrun, foldl_storePlaneWord, hs]

end

/-- STATUS is clear after a write of 1 to each of its flags (rule R29). -/
theorem writeOneToClear_all (st : Status) : st.writeOneToClear 0x107#32 = .clear :=
  status_word_injective ((writeOneToClear_word st _).trans (status_word_and_not_flagMask st))

/-- Settles O42: each line from the writes it stands for. -/
theorem loadLinesLoadTheirOperand : Obligations.LoadLinesLoadTheirOperand := by
  refine fun s hs => ⟨run_issue_ldblk hs, run_issue_ldpln hs, fun v => ?_, fun v => ?_, ?_⟩
  · exact run_issue_write hs (l := .offset) rfl rfl
  · exact run_issue_write hs (l := .width) rfl (by rw [← BitVec.setWidth_eq_extractLsb' (by decide)]; rfl)
  · exact run_issue_write hs (l := .status) rfl (by rw [← writeOneToClear_all s.status]; rfl)

end Sys2Proof.Machine
end

section
/-! PROOFS. The bit_width_analyzer (40_bit_width_analyzer.md): what `analyzeBlock` stores in MAXV and WIDTH meets the
rules' own words for a maximum and a smallest width, and what both are on a ramp. -/

namespace Sys2Proof.Machine

/-! ### What the analyzer stores (rule R100) -/

theorem maximumOf_umax (E : Block) : MaximumOf E (umax E) := by
  obtain ⟨i, hi⟩ := exists_umax E
  exact ⟨fun j hj => le_umax E ⟨j, hj⟩, i.val, i.isLt, hi⟩

/-- A block has one maximum only. -/
theorem umax_eq_of_maximumOf {E : Block} {m : Word} (h : MaximumOf E m) : umax E = m := by
  obtain ⟨hle, i, hi, rfl⟩ := h
  exact BitVec.eq_of_toNat_eq (le_antisymm ((umax_le_iff E _).mpr fun j => hle j.val j.isLt) (le_umax E ⟨i, hi⟩))

theorem smallestWidth_width32 (v : Word) : SmallestWidth v (width32 v) := width32_le_iff v

theorem analyzeBlock_width_toNat (E : Block) (s : State) : (analyzeBlock E s).width.toNat = width32 (umax E) :=
  width32_ofNat_toNat (umax E)

/-- The analyzer's results are a maximum and its smallest width, and it writes MAXV and WIDTH only. -/
theorem analyzeBlock_spec (E : Block) (s : State) :
    MaximumOf E (analyzeBlock E s).maxv ∧
    SmallestWidth (analyzeBlock E s).maxv (analyzeBlock E s).width.toNat ∧
    analyzeBlock E s =
      { s with maxv := (analyzeBlock E s).maxv, width := (analyzeBlock E s).width, rsp := writeDone } :=
  ⟨maximumOf_umax E, analyzeBlock_width_toNat E s ▸ smallestWidth_width32 _, rfl⟩

/-- `deltas` computes the differences of rule R110. -/
theorem deltaCoded_deltas (V : Block) (off : Word) : DeltaCoded V off (deltas V off) :=
  ⟨deltas_zero V off, deltas_succ V off⟩

/-- Settles O10: ANALYZE is the analyzer on BLK. -/
theorem analyzeStoresMaximumAndWidth : Obligations.AnalyzeStoresMaximumAndWidth :=
  ⟨rfl, fun s => answers_of_eq (exec_analyze s) (analyzeBlock_spec s.blk s)⟩

/-- Settles O11: ANALYZE.D is the analyzer on the deltas of BLK. -/
theorem analyzeDStoresLargestDeltaAndWidth : Obligations.AnalyzeDStoresLargestDeltaAndWidth := by
  refine ⟨rfl, fun s => answers_of_eq (exec_analyzeD s) ?_⟩
  obtain ⟨hmax, hwidth, hframe⟩ := analyzeBlock_spec (deltas s.blk s.offset) s
  exact ⟨⟨_, deltaCoded_deltas s.blk s.offset, hmax⟩, hwidth, hframe⟩

/-! ### The width of a block's maximum (rule R103) -/

/-- A width above n means that some lane needs more than n bits. -/
theorem lt_width32_umax_iff (E : Block) (n : Nat) :
    n < width32 (umax E) ↔ ∃ (i : Nat) (_ : i < 128), 2 ^ n ≤ E[i].toNat := by
  rw [← not_le, width32_umax_le_iff]
  simp [Fin.exists_iff]

theorem width32_umax_eq_zero_iff (E : Block) :
    width32 (umax E) = 0 ↔ ∀ (i : Nat) (_ : i < 128), E[i] = 0#32 := by
  rw [← Nat.le_zero, width32_umax_le_iff, Fin.forall_iff]
  simp [← BitVec.toNat_inj]

theorem width32_umax_eq_32_iff (E : Block) :
    width32 (umax E) = 32 ↔ ∃ (i : Nat) (_ : i < 128), 0x80000000 ≤ E[i].toNat := by
  have hle := width32_le (umax E)
  have hgt : width32 (umax E) = 32 ↔ 31 < width32 (umax E) := by omega
  exact hgt.trans (lt_width32_umax_iff E 31)

/-- The maximum does not depend on the order of the lanes. -/
theorem umax_eq_of_perm {B E : Block} (h : B.toList.Perm E.toList) : umax B = umax E :=
  BitVec.eq_of_toNat_eq <| eq_of_forall_ge_iff fun n => by
    simp only [umax, foldl_larger_le_iff, h.mem_iff]

/-- Settles O12: every clause is `width32_umax_le_iff` at one width, but the last, where equal maxima give equal
results. -/
theorem analyzedWidthFitsAndIsMinimal : Obligations.AnalyzedWidthFitsAndIsMinimal := by
  refine fun s => answers_of_eq (exec_analyze s) ?_
  rw [analyzeBlock_width_toNat]
  refine ⟨fun i hi => (width32_umax_le_iff s.blk _).mp le_rfl ⟨i, hi⟩, fun hpos => ?_,
    width32_umax_eq_zero_iff s.blk, width32_umax_eq_32_iff s.blk, fun B hB => ?_⟩
  · exact (lt_width32_umax_iff s.blk _).mp (Nat.sub_one_lt hpos.ne')
  · exact answers_of_eq (exec_analyze _) (by simp [umax_eq_of_perm hB])

/-! ### Ramps (rule R104) -/

/-- The block counts up by 1 from the offset, modulo 2^32. -/
def RampFrom (off : Word) (V : Block) : Prop := ∀ (i : Nat) (_ : i < 128), V[i] = off + BitVec.ofNat 32 i

section
variable {off : Word} {V : Block} (h : RampFrom off V)
include h

theorem RampFrom.deltas_zero : (deltas V off)[0] = 0#32 := by
  rw [Machine.deltas_zero, h 0 (by decide), sub32]
  simp

theorem RampFrom.deltas_succ (i : Nat) (hi : i + 1 < 128) : (deltas V off)[i + 1] = 1#32 := by
  rw [Machine.deltas_succ V off i hi, h (i + 1) hi, h i (by omega), sub32, BitVec.ofNat_add]
  bv_omega

/-- The deltas of a ramp are 0, 1, ..., 1, whether or not the ramp wraps. -/
theorem RampFrom.umax_deltas : umax (deltas V off) = 1#32 := by
  refine umax_eq_of_maximumOf ⟨fun i hi => ?_, 1, by decide, h.deltas_succ 0 (by decide)⟩
  cases i with
  | zero => simp [h.deltas_zero]
  | succ i => simp [h.deltas_succ i hi]

/-- The last lane of a ramp that does not wrap is its largest. -/
theorem RampFrom.umax_of_le (hoff : off.toNat + 127 < 2 ^ 32) : umax V = off + 127#32 := by
  refine umax_eq_of_maximumOf ⟨fun i hi => ?_, 127, by decide, h 127 (by decide)⟩
  rw [h i hi]
  bv_omega

/-- A ramp that wraps passes through the largest word. -/
theorem RampFrom.umax_of_gt (hoff : 0xFFFFFF80 < off.toNat) : umax V = 0xFFFFFFFF#32 := by
  have hi : 0xFFFFFFFF - off.toNat < 128 := by omega
  refine umax_eq_of_maximumOf ⟨fun j _ => Nat.le_of_lt_succ V[j].isLt, _, hi, ?_⟩
  rw [h _ hi]
  bv_omega

end

theorem width32_one : width32 1#32 = 1 := by decide +kernel

/-- Settles O13: the analyzer sees the maximum 1 of a ramp's deltas, and of a ramp itself the last lane or, if it wraps,
the largest word. -/
theorem deltaModeAdvantageOnRamps : Obligations.DeltaModeAdvantageOnRamps := by
  intro s (h : RampFrom s.offset s.blk)
  refine ⟨?_, fun hoff => answers_of_eq (exec_analyze s) ?_, fun hoff => answers_of_eq (exec_analyze s) ?_⟩
  · have hw : (analyzeBlock (deltas s.blk s.offset) s).width = 1#6 := by simp [h.umax_deltas, width32_one]
    rw [execAll_cons_of_next (exec_analyzeD s), execAll_cons_of_next (exec_of_packsAt (.packD _)), hw,
      packAt_of_le (by decide)]
    exact answers_of_eq rfl ⟨hw, h.umax_deltas, by simp [h.umax_deltas, width32_one, length_serialise]⟩
  · rw [analyzeBlock_width_toNat, width32_eq_clog, analyzeBlock_width, h.umax_of_le hoff]
    refine ⟨?_, fun h0 => ?_, fun h1000 => ?_⟩
    · congr 1
      bv_omega
    · rw [h0]
      decide +kernel
    · rw [h1000]
      decide +kernel
  · simp only [analyzeBlock_maxv, analyzeBlock_width, h.umax_of_gt hoff]
    decide +kernel

end Sys2Proof.Machine
end

section
/-! PROOFS. The delta_transformer (41_delta_transformer.md): a block is the running sum of its differences and of no
other block, so the two transforms are one relation read in its two directions, and the D forms apply them inside a
pack, an unpack or the analyzer. -/

namespace Sys2Proof.Machine

/-! ### The two transforms (rules R110 to R112) -/

/-- `runningSum` computes the sums of rule R111. -/
theorem accumulated_runningSum (G : Block) (off : Word) : Accumulated G off (runningSum G off) :=
  ⟨runningSum_zero G off, runningSum_succ G off⟩

/-- Each lane's difference is what its sum adds. -/
theorem deltaCoded_iff_accumulated {V E : Block} {off : Word} : DeltaCoded V off E ↔ Accumulated E off V := by
  have lane (e v p : Word) : e = v - p ↔ v = p + e := by rw [eq_sub_iff_add_eq, add_comm e p, eq_comm]
  simp only [DeltaCoded, Accumulated, lane]

theorem DeltaCoded.eq_deltas {V E : Block} {off : Word} (h : DeltaCoded V off E) : E = deltas V off := by
  obtain ⟨hzero, hsucc⟩ := h
  refine Vector.ext fun i hi => ?_
  cases i with
  | zero => exact hzero.trans (deltas_zero V off).symm
  | succ i => exact (hsucc i hi).trans (deltas_succ V off i hi).symm

theorem Accumulated.eq_runningSum {G V : Block} {off : Word} (h : Accumulated G off V) : V = runningSum G off := by
  obtain ⟨hzero, hsucc⟩ := h
  refine Vector.ext fun i hi => ?_
  induction i with
  | zero => exact hzero.trans (runningSum_zero G off).symm
  | succ i ih => rw [hsucc i hi, ih (by omega), runningSum_succ G off i hi, add32]

theorem runningSum_deltas (V : Block) (off : Word) : runningSum (deltas V off) off = V :=
  (deltaCoded_iff_accumulated.mp (deltaCoded_deltas V off)).eq_runningSum.symm

theorem deltas_runningSum (G : Block) (off : Word) : deltas (runningSum G off) off = G :=
  (deltaCoded_iff_accumulated.mpr (accumulated_runningSum G off)).eq_deltas.symm

/-- The offset is in every sum once. -/
theorem runningSum_getElem_of_offset (G : Block) (off off' : Word) (i : Nat) (hi : i < 128) :
    (runningSum G off')[i] = add32 (runningSum G off)[i] (sub32 off' off) := by
  induction i with
  | zero =>
    rw [runningSum_zero, runningSum_zero, add32, add32, add32, sub32]
    abel
  | succ i ih =>
    rw [runningSum_succ G off' i hi, runningSum_succ G off i hi, ih (by omega), add32, add32, add32, add32]
    abel

theorem runningSum_getElem_toNat (G : Block) (off : Word) (i : Nat) (hi : i < 128) :
    (runningSum G off)[i].toNat = (off.toNat + ((G.toList.take (i + 1)).map BitVec.toNat).sum) % 2 ^ 32 := by
  have sum_succ (n : Nat) (hn : n < 128) : ((G.toList.take (n + 1)).map BitVec.toNat).sum =
      ((G.toList.take n).map BitVec.toNat).sum + G[n].toNat := by
    rw [List.map_take, List.sum_take_succ _ _ (by simpa using hn)]
    simp
  induction i with
  | zero =>
    rw [runningSum_zero, add32_toNat, sum_succ 0 hi]
    simp
  | succ i ih =>
    rw [runningSum_succ G off i hi, add32_toNat, ih (by omega), sum_succ (i + 1) hi, ← add_assoc, Nat.mod_add_mod]

/-- Settles O8: the recurrence is how `runningSum` runs, and the closed sum follows lane by lane. -/
theorem inverseTransformIsRunningSum : Obligations.InverseTransformIsRunningSum := fun G off =>
  ⟨accumulated_runningSum G off, runningSum_getElem_toNat G off⟩

/-- Settles O9: a block is the running sum of its deltas, and another offset shifts every sum. -/
theorem transformsAreMutuallyInverse : Obligations.TransformsAreMutuallyInverse := by
  intro V off
  refine ⟨runningSum_deltas V off, deltas_runningSum V off, fun off' i hi => ?_⟩
  rw [runningSum_getElem_of_offset (deltas V off) off off' i hi, runningSum_deltas]

/-! ### DELTA and UNDELTA (rules R113, R114) -/

/-- A word of a command without modifiers is illegal with D = 1 or I = 1 (rule R84 (d)). -/
theorem exists_decode_eq_error_of_modifier {w : Word}
    (hop : w.toNat % 16 = 0x0 ∨ w.toNat % 16 = 0x4 ∨ w.toNat % 16 = 0x5 ∨ w.toNat % 16 = 0xF)
    (hmod : w.getLsbD 4 = true ∨ w.getLsbD 5 = true) : ∃ e, decode w = .error e :=
  (illegalWordsAreExactlyTheFiveClauses.1 w).mpr (.inr (.inr (.inr (.inl ⟨hop, hmod⟩))))

/-- Settles O14: DELTA stores `deltas` of the old BLK. -/
theorem deltaReplacesBlockSimultaneously : Obligations.DeltaReplacesBlockSimultaneously :=
  ⟨rfl, fun _ hop hmod => exists_decode_eq_error_of_modifier (.inr (.inl hop)) hmod,
    fun s => answers_of_eq (exec_delta s) ⟨deltaCoded_deltas s.blk s.offset, rfl⟩⟩

/-- Settles O15: UNDELTA stores `runningSum` of the old BLK. -/
theorem undeltaReplacesBlockByRunningSum : Obligations.UndeltaReplacesBlockByRunningSum :=
  ⟨rfl, fun _ hop hmod => exists_decode_eq_error_of_modifier (.inr (.inr (.inl hop))) hmod,
    fun s => answers_of_eq (exec_undelta s) ⟨accumulated_runningSum s.blk s.offset, rfl⟩⟩

/-! ### The D forms as compositions (rule R115) -/

/-- A plain pack after DELTA is the D form, but for BLK; both are refused alike. -/
theorem packAt_false_after_delta (b : Nat) (s : State) :
    packAt false b (complete { s with blk := deltas s.blk s.offset }) =
      { packAt true b s with blk := deltas s.blk s.offset } := by
  rcases Nat.lt_or_ge 32 b with hb | hb
  · rw [packAt_of_gt hb, packAt_of_gt hb]
    rfl
  · rw [packAt_of_le hb, packAt_of_le hb]
    rfl

/-- UNDELTA after a plain unpack that is not refused is the D form. -/
theorem undelta_after_unpackAt_false {b : Nat} (hb : b ≤ 32) (s : State) :
    exec .undelta (unpackAt false b s) = .next (unpackAt true b s) := by
  rw [exec_undelta, unpackAt_of_le hb, unpackAt_of_le hb]
  rfl

theorem delta_then_pack {i j : Instr} {b : Nat} {s : State}
    (hi : PacksAt i false b (complete { s with blk := deltas s.blk s.offset })) (hj : PacksAt j true b s) :
    Answers (execAll [.delta, i] s) fun t => Answers (exec j s) fun u => t.pln = u.pln ∧ t.status = u.status := by
  rw [execAll_cons_of_next (exec_delta s), execAll_cons_of_next (exec_of_packsAt hi), packAt_false_after_delta]
  exact answers_of_eq (execAll_nil _) (answers_of_eq (exec_of_packsAt hj) ⟨rfl, rfl⟩)

theorem unpack_then_undelta {i j : Instr} {b : Nat} {s : State} (hb : b ≤ 32)
    (hi : UnpacksAt i false b s) (hj : UnpacksAt j true b s) :
    Answers (execAll [i, .undelta] s) fun t => Answers (exec j s) fun u => t.blk = u.blk := by
  rw [execAll_cons_of_next (exec_of_unpacksAt hi), execAll_cons_of_next (undelta_after_unpackAt_false hb s)]
  exact answers_of_eq (execAll_nil _) (answers_of_eq (exec_of_unpacksAt hj) rfl)

/-- Settles O16: the transforms are inverse, and each D form applies one of them to the block it works on. -/
theorem deltaFormsAreCompositions : Obligations.DeltaFormsAreCompositions := by
  intro s
  refine ⟨?_, ?_, ?_, delta_then_pack (.pack _) (.packD s), fun b => delta_then_pack (.packI b _) (.packID b s),
    fun hb => unpack_then_undelta hb (.unpack s) (.unpackD s),
    fun b hb => unpack_then_undelta hb (.unpackI b s) (.unpackID b s)⟩
  · rw [execAll_cons_of_next (exec_delta s), execAll_cons_of_next (exec_undelta _)]
    exact answers_of_eq (execAll_nil _) (runningSum_deltas s.blk s.offset)
  · rw [execAll_cons_of_next (exec_undelta s), execAll_cons_of_next (exec_delta _)]
    exact answers_of_eq (execAll_nil _) (deltas_runningSum s.blk s.offset)
  · rw [execAll_cons_of_next (exec_delta s), execAll_cons_of_next (exec_analyze _)]
    exact answers_of_eq (execAll_nil _)
      ⟨deltaCoded_deltas s.blk s.offset, answers_of_eq (exec_analyzeD s) ⟨rfl, rfl⟩⟩

end Sys2Proof.Machine
end

section
/-! PROOFS. The bit_packer (42_bit_packer.md): which planes, STATUS and response `packAt` leaves, said once for the four
pack commands, and what the planes hold of the encoded block. -/

namespace Sys2Proof.Machine

/-! ### What a pack leaves (rules R122, R125, R128) -/

/-- `encodedBlock` computes the encoded block of rule R10. -/
theorem encodes_encodedBlock (d : Bool) (s : State) : Encodes d s (encodedBlock d s) := by
  cases d with
  | false => rfl
  | true => exact deltaCoded_deltas s.blk s.offset

section
variable {b : Nat} (hb : b ≤ 32) (d : Bool) (s : State)
include hb

theorem packAt_pln_of_lt {p : Nat} (hp : p < 32) (hpb : p < b) :
    (packAt d b s).pln[p] = plane (encodedBlock d s) p := by
  simp only [packAt_of_le hb, complete_pln, packInto_getElem, if_pos hpb]

theorem packAt_pln_of_ge {p : Nat} (hp : p < 32) (hbp : b ≤ p) : (packAt d b s).pln[p] = s.pln[p] := by
  simp only [packAt_of_le hb, complete_pln, packInto_getElem, if_neg (Nat.not_lt.mpr hbp)]

/-- TRUNC stays set, or is set because a lane needs more than b bits. -/
theorem packAt_trunc_iff : (packAt d b s).status.trunc = true ↔
    s.status.trunc = true ∨ ∃ (l : Nat) (_ : l < 128), 2 ^ b ≤ (encodedBlock d s)[l].toNat := by
  simp only [packAt_of_le hb, complete_status, noteTruncation_trunc, Bool.or_eq_true, decide_eq_true_eq,
    lt_width32_umax_iff]

/-- A pack that is not refused changes the planes and TRUNC only, and answers. -/
theorem packAt_frame : packAt d b s =
    { s with
      pln := (packAt d b s).pln
      status := { s.status with trunc := (packAt d b s).status.trunc }
      rsp := writeDone } := by
  rw [packAt_of_le hb]
  rfl

/-- A pack at the true width or above does not truncate. -/
theorem packAt_status_of_width_le (hw : width32 (umax (encodedBlock d s)) ≤ b) : (packAt d b s).status = s.status := by
  rw [packAt_of_le hb, decide_eq_false (Nat.not_lt.mpr hw), noteTruncation_false]
  rfl

end

/-- Settles O17: the planes below b are those of the encoded block, bit by bit, and the rest is the frame. -/
theorem packWritesBitPlanes : Obligations.PackWritesBitPlanes := by
  intro i d b s hi
  refine ⟨fun hb => answers_of_eq (exec_of_packsAt hi) ⟨⟨encodedBlock d s, encodes_encodedBlock d s, ?_,
    packAt_trunc_iff hb d s⟩, fun p hp => packAt_pln_of_ge hb d s hp, packAt_frame hb d s⟩, fun hb => ?_⟩
  · intro p hp hpb l hl
    rw [packAt_pln_of_lt hb d s hp hpb, plane_getLsbD _ _ _ hl]
  · rw [exec_of_packsAt hi, packAt_of_gt hb]
    rfl

/-! ### What the planes hold (rules R120, R129) -/

/-- Plane p is made of bit p of the lanes and of nothing else. -/
theorem plane_congr {E F : Block} {p : Nat} (h : ∀ (l : Nat) (_ : l < 128), E[l].getLsbD p = F[l].getLsbD p) :
    plane E p = plane F p :=
  BitVec.eq_of_getLsbD_eq fun l hl => by rw [plane_getLsbD _ _ _ hl, plane_getLsbD _ _ _ hl, h l hl]

/-- No lane has a bit at or above the true width. -/
theorem getLsbD_eq_false_of_width_le {E : Block} {p : Nat} (hp : width32 (umax E) ≤ p) {l : Nat} (hl : l < 128) :
    E[l].getLsbD p = false :=
  Nat.testBit_lt_two_pow ((width32_umax_le_iff E p).mp hp ⟨l, hl⟩)

theorem plane_eq_zero_of_width_le {E : Block} {p : Nat} (hp : width32 (umax E) ≤ p) : plane E p = 0#128 :=
  BitVec.eq_of_getLsbD_eq fun l hl => by
    rw [plane_getLsbD _ _ _ hl, getLsbD_eq_false_of_width_le hp hl, BitVec.getLsbD_zero]

/-- Reducing every lane modulo 2^b keeps the planes below b. -/
theorem plane_of_mod_two_pow {E F : Block} {b p : Nat} (hpb : p < b)
    (hF : ∀ (l : Nat) (_ : l < 128), F[l].toNat = E[l].toNat % 2 ^ b) : plane E p = plane F p :=
  plane_congr fun l hl => by
    rw [← BitVec.testBit_toNat, ← BitVec.testBit_toNat, hF l hl, Nat.testBit_mod_two_pow, decide_eq_true hpb,
      Bool.true_and]

/-- A pack at the true width or above is lossless: the bits that are not packed are 0. -/
theorem gather_packAt_of_width_le {d : Bool} {b : Nat} {s : State} (hb : b ≤ 32)
    (hw : width32 (umax (encodedBlock d s)) ≤ b) : gather (packAt d b s).pln b = encodedBlock d s := by
  refine Vector.ext fun l hl => BitVec.eq_of_getLsbD_eq fun p hp => ?_
  rw [gather_getLsbD _ _ _ _ hl hp]
  rcases Nat.lt_or_ge p b with hpb | hbp
  · rw [packAt_pln_of_lt hb d s hp hpb, plane_getLsbD _ _ _ hl, decide_eq_true hpb, Bool.true_and]
  · rw [decide_eq_false (Nat.not_lt.mpr hbp), Bool.false_and, getLsbD_eq_false_of_width_le (hw.trans hbp) hl]

/-- Settles O21: every clause on the planes is one fact about `plane`, because they are the encoded block's. -/
theorem packIsLosslessOrReducesModulo : Obligations.PackIsLosslessOrReducesModulo := by
  intro i d b s t hi hb ht
  obtain rfl := Host.Outcome.next.inj ((exec_of_packsAt hi).symm.trans ht)
  refine ⟨fun hw => ⟨gather_packAt_of_width_le hb hw, fun p hp hwp hpb => ?_⟩, fun F hF p hp hpb => ?_,
    fun j e s' t' hj ht' p hp hpb hbits => ?_, length_serialise _ hb⟩
  · rw [packAt_pln_of_lt hb d s hp hpb, plane_eq_zero_of_width_le hwp]
  · rw [packAt_pln_of_lt hb d s hp hpb, plane_of_mod_two_pow hpb hF]
  · obtain rfl := Host.Outcome.next.inj ((exec_of_packsAt hj).symm.trans ht')
    rw [packAt_pln_of_lt hb e s' hp hpb, packAt_pln_of_lt hb d s hp hpb, plane_congr hbits]

/-! ### A pack right after the analyze of its mode (rules R103, R123, R125) -/

/-- The analyze stores the true width of the block that the pack encodes, and that is a legal width. -/
theorem analyze_then_pack {i j : Instr} {d : Bool} {s : State}
    (hi : exec i s = .next (analyzeBlock (encodedBlock d s) s))
    (hj : PacksAt j d (analyzeBlock (encodedBlock d s) s).width.toNat (analyzeBlock (encodedBlock d s) s)) :
    Answers (execAll [i, j] s) fun t => t.status = s.status ∧ t.rsp = writeDone := by
  have hE : encodedBlock d (analyzeBlock (encodedBlock d s) s) = encodedBlock d s := encodedBlock_congr rfl fun _ => rfl
  have hwidth := analyzeBlock_width_toNat (encodedBlock d s) s
  have hle := hwidth.trans_le (width32_le _)
  rw [execAll_cons_of_next hi, execAll_cons_of_next (exec_of_packsAt hj)]
  refine answers_of_eq (execAll_nil _) ⟨packAt_status_of_width_le hle d _ ?_, by rw [packAt_frame hle]⟩
  rw [hE, hwidth]

/-- Settles O23: both modes are the same two commands on their encoded block. -/
theorem packAfterAnalyzeNeverTruncates : Obligations.PackAfterAnalyzeNeverTruncates := fun s =>
  ⟨analyze_then_pack (d := false) (exec_analyze s) (.pack _),
    analyze_then_pack (d := true) (exec_analyzeD s) (.packD _)⟩

end Sys2Proof.Machine
end

section
/-! PROOFS. The bit_unpacker (43_bit_unpacker.md): what `gather` collects from the planes as numbers, what `unpackAt`
stores of it, and what an unpack makes of the planes a pack left, at the pack's width and at every other. -/

namespace Sys2Proof.Machine

/-! ### What an unpack leaves (rules R135, R136) -/

/-- `gather` collects the block of rule R135. -/
theorem gathered_gather (P : Planes) (b : Nat) : Gathered P b (gather P b) := fun i hi p hp =>
  gather_getLsbD P b i p hi hp

/-- A gathered value has only the bits that were gathered (rule R135). -/
theorem gather_getElem_toNat_lt (P : Planes) (b l : Nat) (hl : l < 128) : (gather P b)[l].toNat < 2 ^ b := by
  refine Nat.lt_pow_two_of_testBit _ fun p hbp => ?_
  rw [BitVec.testBit_toNat]
  rcases Nat.lt_or_ge p 32 with hp | hp
  · rw [gather_getLsbD P b l p hl hp, decide_eq_false (Nat.not_lt.mpr hbp), Bool.false_and]
  · exact BitVec.getLsbD_of_ge _ p hp

/-- An unpack that is not refused changes BLK only, and answers. -/
theorem unpackAt_frame {b : Nat} (hb : b ≤ 32) (d : Bool) (s : State) :
    unpackAt d b s = { s with blk := (unpackAt d b s).blk, rsp := writeDone } := by
  rw [unpackAt_of_le hb]
  rfl

theorem unpackAt_blk {b : Nat} (hb : b ≤ 32) (d : Bool) (s : State) :
    (unpackAt d b s).blk = decodedBlock d (gather s.pln b) s := by
  rw [unpackAt_of_le hb, complete_blk]

theorem unpackAt_status {b : Nat} (hb : b ≤ 32) (d : Bool) (s : State) : (unpackAt d b s).status = s.status := by
  rw [unpackAt_of_le hb, complete_status]

/-- `decodedBlock` stores what rule R10 decodes. -/
theorem decodedBlock_spec (d : Bool) (G : Block) (s : State) :
    if d then Accumulated G s.offset (decodedBlock d G s) else decodedBlock d G s = G := by
  cases d with
  | false => rfl
  | true => exact accumulated_runningSum G s.offset

/-! ### The exact round trip (rule R141) -/

/-- The decoding of a mode undoes its encoding (rule R112). -/
theorem decodedBlock_encodedBlock (d : Bool) (s : State) : decodedBlock d (encodedBlock d s) s = s.blk := by
  cases d with
  | false => rfl
  | true => exact runningSum_deltas s.blk s.offset

@[simp] theorem packAt_width (d : Bool) (b : Nat) (s : State) : (packAt d b s).width = s.width := by
  unfold packAt
  split <;> rfl

@[simp] theorem packAt_offset (d : Bool) (b : Nat) (s : State) : (packAt d b s).offset = s.offset := by
  unfold packAt
  split <;> rfl

/-- Any state with the packed planes, and in delta mode the offset, unpacks to the block that was packed. -/
theorem unpackAt_blk_of_packed {d : Bool} {b : Nat} {s u : State} (hb : b ≤ 32)
    (hw : width32 (umax (encodedBlock d s)) ≤ b)
    (hpln : ∀ (p : Nat) (_ : p < 32), p < b → u.pln[p] = (packAt d b s).pln[p])
    (hoff : d = true → u.offset = s.offset) : (unpackAt d b u).blk = s.blk :=
  calc (unpackAt d b u).blk
    _ = decodedBlock d (gather (packAt d b s).pln b) s := by
      rw [unpackAt_blk hb, gather_congr hpln, decodedBlock_congr _ hoff]
    _ = s.blk := by rw [gather_packAt_of_width_le hb hw, decodedBlock_encodedBlock]

theorem pack_then_unpack {i j : Instr} {d : Bool} {b : Nat} {s : State} (hb : b ≤ 32)
    (hw : width32 (umax (encodedBlock d s)) ≤ b) (hi : PacksAt i d b s) (hj : UnpacksAt j d b (packAt d b s)) :
    Answers (execAll [i, j] s) fun t => t.blk = s.blk := by
  rw [execAll_cons_of_next (exec_of_packsAt hi), execAll_cons_of_next (exec_of_unpacksAt hj)]
  exact answers_of_eq (execAll_nil _) (unpackAt_blk_of_packed hb hw (fun _ _ _ => rfl) fun _ => packAt_offset d b s)

/-- The analyze leaves the true width of the block that is then packed and unpacked, and the pack keeps it. -/
theorem analyze_then_pack_then_unpack {h i j : Instr} {d : Bool} {s : State}
    (hh : exec h s = .next (analyzeBlock (encodedBlock d s) s))
    (hi : ∀ t, PacksAt i d t.width.toNat t) (hj : ∀ t, UnpacksAt j d t.width.toNat t) :
    Answers (execAll [h, i, j] s) fun t => t.blk = s.blk := by
  rw [execAll_cons_of_next hh]
  have hE : encodedBlock d (analyzeBlock (encodedBlock d s) s) = encodedBlock d s := encodedBlock_congr rfl fun _ => rfl
  have hwidth := analyzeBlock_width_toNat (encodedBlock d s) s
  exact pack_then_unpack (hwidth.trans_le (width32_le _)) (hE ▸ hwidth.ge) (hi _)
    (by simpa only [packAt_width] using hj (packAt d _ _))

/-- Settles O22: the clauses are one round trip, at the analyzed width, at a chosen one, and in another state. -/
theorem packUnpackRoundTripIsExact : Obligations.PackUnpackRoundTripIsExact := by
  refine ⟨fun s => analyze_then_pack_then_unpack (d := false) (exec_analyze s) .pack .unpack,
    fun s => analyze_then_pack_then_unpack (d := true) (exec_analyzeD s) .packD .unpackD,
    fun s b hb hw => pack_then_unpack (d := false) hb hw (.packI b s) (.unpackI b _),
    fun s b hb hw => pack_then_unpack (d := true) hb hw (.packID b s) (.unpackID b _),
    fun i j d b s t u hi hj hb hw ht hpln hoff => ?_⟩
  obtain rfl := Host.Outcome.next.inj ((exec_of_packsAt hi).symm.trans ht)
  exact answers_of_eq (exec_of_unpacksAt hj) (unpackAt_blk_of_packed hb hw hpln hoff)

/-- Settles O18: the gathered block is `gather`'s, `decodedBlock` stores it, and the rest is the frame. -/
theorem unpackRebuildsTheBlock : Obligations.UnpackRebuildsTheBlock := by
  intro i d b s hi
  refine ⟨fun hb => answers_of_eq (exec_of_unpacksAt hi) ⟨⟨gather s.pln b, gathered_gather s.pln b,
    gather_getElem_toNat_lt s.pln b, ?_⟩, unpackAt_frame hb d s⟩, fun hb => ?_⟩
  · rw [unpackAt_blk hb]
    exact decodedBlock_spec d _ s
  · rw [exec_of_unpacksAt hi, unpackAt_of_gt hb]
    rfl

/-! ### Running sums as numbers (rule R111), and width 0 -/

theorem runningSum_getElem_toNat_eq_sum (G : Block) (off : Word) (l : Nat) (hl : l < 128) :
    (runningSum G off)[l].toNat = (off.toNat + ∑ k : Fin 128, if k.val ≤ l then G[k].toNat else 0) % 2 ^ 32 := by
  have hlist : G.toList.map BitVec.toNat = List.ofFn fun k : Fin 128 => G[k].toNat :=
    List.ext_getElem (by rw [List.length_map, Vector.length_toList, List.length_ofFn]) fun k _ _ => by
      rw [List.getElem_map, List.getElem_ofFn, Vector.getElem_toList, Fin.getElem_fin]
  rw [runningSum_getElem_toNat G off l hl, List.map_take, hlist, List.sum_take_ofFn, Finset.sum_filter]
  simp only [Nat.lt_succ_iff]

theorem gather_zero_getElem (P : Planes) (l : Nat) (hl : l < 128) : (gather P 0)[l] = 0#32 :=
  BitVec.eq_of_toNat_eq (Nat.lt_one_iff.mp (gather_getElem_toNat_lt P 0 l hl))

/-- Every sum of zeros is the offset. -/
theorem runningSum_getElem_of_zero {G : Block} (hG : ∀ (l : Nat) (_ : l < 128), G[l] = 0#32) (off : Word) (l : Nat)
    (hl : l < 128) : (runningSum G off)[l] = off := by
  induction l with
  | zero => rw [runningSum_zero, hG 0 hl, add32, BitVec.add_zero]
  | succ l ih => rw [runningSum_succ G off l hl, ih (by omega), hG (l + 1) hl, add32, BitVec.add_zero]

/-- Settles O19: at width 0 every gathered value is 0, and so every sum is the offset. -/
theorem unpackAtWidthZeroFillsTheBlock : Obligations.UnpackAtWidthZeroFillsTheBlock := by
  intro i d s hi
  refine answers_of_eq (exec_of_unpacksAt hi) fun l hl => ?_
  rw [unpackAt_blk (Nat.zero_le 32)]
  cases d with
  | false => exact gather_zero_getElem s.pln l hl
  | true => exact runningSum_getElem_of_zero (gather_zero_getElem s.pln) s.offset l hl

/-! ### An unpack at another width than the pack's (rule R142) -/

/-- A number modulo 2^n is the sum of its low n bits. -/
theorem mod_two_pow_eq_sum_testBit (v n : Nat) : v % 2 ^ n = ∑ p : Fin n, if v.testBit p then 2 ^ p.val else 0 := by
  induction n with
  | zero => simp [Nat.mod_one]
  | succ n ih =>
    rw [Nat.mod_pow_succ, ← Nat.toNat_testBit, ih, Fin.sum_univ_castSucc]
    cases h : v.testBit n <;> simp [h]

theorem toNat_mod_two_pow_eq_sum (v : Word) (b : Nat) :
    v.toNat % 2 ^ b = ∑ p : Fin 32, if p.val < b ∧ v.getLsbD p = true then 2 ^ p.val else 0 := by
  have hlt : v.toNat % 2 ^ b < 2 ^ 32 := (Nat.mod_le _ _).trans_lt v.isLt
  rw [← Nat.mod_eq_of_lt hlt, mod_two_pow_eq_sum_testBit]
  simp only [Nat.testBit_mod_two_pow, Bool.and_eq_true, decide_eq_true_eq, BitVec.testBit_toNat]

/-- What planes bp to bu-1 hold in lane l, planes that a pack at bp did not write. -/
def staleValue (P : Planes) (bp bu l : Nat) : Nat :=
  ∑ p : Fin 32, if bp ≤ p.val ∧ p.val < bu ∧ P[p].getLsbD l = true then 2 ^ p.val else 0

theorem staleValue_of_le (P : Planes) {bp bu : Nat} (h : bu ≤ bp) (l : Nat) : staleValue P bp bu l = 0 :=
  Finset.sum_eq_zero fun p _ => if_neg fun ⟨hbp, hbu, _⟩ => by omega

/-- The planes below both widths hold the encoded value's bits; the others that are read are stale (rule R142). -/
theorem gather_packAt_getElem_toNat {bp : Nat} (hbp : bp ≤ 32) (bu : Nat) (d : Bool) (s : State) (l : Nat)
    (hl : l < 128) : (gather (packAt d bp s).pln bu)[l].toNat =
      (encodedBlock d s)[l].toNat % 2 ^ min bu bp + staleValue s.pln bp bu l := by
  have h32 := toNat_mod_two_pow_eq_sum (gather (packAt d bp s).pln bu)[l] 32
  rw [Nat.mod_eq_of_lt (BitVec.isLt _)] at h32
  rw [h32, toNat_mod_two_pow_eq_sum, staleValue, ← Finset.sum_add_distrib]
  refine Finset.sum_congr rfl fun p _ => ?_
  rw [gather_getLsbD _ _ _ _ hl p.isLt]
  rcases Nat.lt_or_ge p.val bp with hp | hp
  · rw [packAt_pln_of_lt hbp d s p.isLt hp, plane_getLsbD _ _ _ hl]
    simp [hp, Nat.not_le.mpr hp]
  · rw [packAt_pln_of_ge hbp d s p.isLt hp]
    simp [hp, Nat.not_lt.mpr hp]

section
variable {bp bu : Nat} (hbp : bp ≤ 32) (d : Bool) (s : State) (l : Nat) (hl : l < 128)
include hbp

theorem gather_packAt_getElem_toNat_of_le (h : bu ≤ bp) :
    (gather (packAt d bp s).pln bu)[l].toNat = (encodedBlock d s)[l].toNat % 2 ^ bu := by
  rw [gather_packAt_getElem_toNat hbp bu d s l hl, min_eq_left h, staleValue_of_le s.pln h, Nat.add_zero]

theorem gather_packAt_getElem_toNat_of_ge (h : bp ≤ bu) :
    (gather (packAt d bp s).pln bu)[l].toNat =
      (encodedBlock d s)[l].toNat % 2 ^ bp + staleValue s.pln bp bu l := by
  rw [gather_packAt_getElem_toNat hbp bu d s l hl, min_eq_right h]

end

/-- Settles O24: a plain unpack stores the gathered values, a delta unpack their running sums. -/
theorem mismatchedWidthsGiveWrongValuesSilently : Obligations.MismatchedWidthsGiveWrongValuesSilently := by
  intro i j d bp bu s t hi hbp hbu ht
  obtain rfl := Host.Outcome.next.inj ((exec_of_packsAt hi).symm.trans ht)
  refine ⟨fun hj => answers_of_eq (exec_of_unpacksAt hj) ?_, fun hj => answers_of_eq (exec_of_unpacksAt hj) ?_⟩
  · rw [unpackAt_blk hbu]
    exact ⟨unpackAt_status hbu false _, fun h l hl => gather_packAt_getElem_toNat_of_le hbp d s l hl h,
      fun h l hl => gather_packAt_getElem_toNat_of_ge hbp d s l hl h⟩
  · rw [unpackAt_blk hbu]
    refine ⟨unpackAt_status hbu true _, fun h l hl => (runningSum_getElem_toNat_eq_sum _ _ l hl).trans ?_,
      fun h l hl => (runningSum_getElem_toNat_eq_sum _ _ l hl).trans ?_⟩
    · simp only [Fin.getElem_fin, gather_packAt_getElem_toNat_of_le hbp d s _ (Fin.isLt _) h]
    · simp only [Fin.getElem_fin, gather_packAt_getElem_toNat_of_ge hbp d s _ (Fin.isLt _) h, staleValue]

end Sys2Proof.Machine
end

section
/-! PROOFS. The system commands (44_system_commands.md): NOP and SRST have one word each (rule R84), and what each of
them leaves. -/

namespace Sys2Proof

/-! ### A command without modifiers has one word (rules R83, R84) -/

theorem decodeFields_eq_ok_of_decode {w : Word} {c : Instr} (h : decode w = .ok c) :
    decodeFields (opField w) (deltaField w) (immediateField w) (bimmField w).toNat = .ok c := by
  unfold decode at h
  split at h
  · cases h
  split at h
  · cases h
  · exact h

/-- Where an opcode has one command, without modifiers, any other word with that opcode is illegal. -/
theorem exists_decode_eq_error_of_ne_encode {op : BitVec 4} {c : Instr} {w : Word}
    (hplain : ∀ d i b, decodeFields op d i b = plainOnly d i c) (hop : w.toNat % 16 = op.toNat)
    (hne : w ≠ encode c) : ∃ e, decode w = .error e := by
  cases hd : decode w with
  | error e => exact ⟨e, rfl⟩
  | ok c' =>
    have hfield : opField w = op := BitVec.eq_of_toNat_eq ((opField_toNat w).trans hop)
    have hfields := decodeFields_eq_ok_of_decode hd
    rw [hfield, hplain] at hfields
    obtain ⟨-, -, rfl⟩ := plainOnly_eq_ok hfields
    exact absurd (encode_eq_of_decode hd).symm hne

end Sys2Proof

namespace Sys2Proof.Machine

/-! ### What NOP and SRST do (rules R150, R151) -/

/-- Settles O3: 0xF is the opcode of SRST alone, and its response is added to the cleared state. -/
theorem srstGivesResetState : Obligations.SrstGivesResetState :=
  ⟨decode_encode (c := .srst) trivial,
    fun _ => exists_decode_eq_error_of_ne_encode (op := 0xF#4) (c := .srst) fun _ _ _ => rfl, exec_srst⟩

/-- Settles O4: 0x0 is the opcode of NOP alone, and NOP only completes its write. -/
theorem nopLeavesTheState : Obligations.NopLeavesTheState :=
  ⟨decode_encode (c := .nop) trivial,
    fun _ => exists_decode_eq_error_of_ne_encode (op := 0x0#4) (c := .nop) fun _ _ _ => rfl, exec_nop⟩

end Sys2Proof.Machine
end

section
/-! PROOFS. The three faults (60_exceptions.md): which check refuses a transaction and what the refusal leaves
(`RaisesFault`), that every error response is on record, and that the flags influence nothing (rules R160 to R166,
R170). -/

namespace Sys2Proof.Machine

/-! ### The width check (rule R162) -/

theorem exec_of_width_gt {i : Instr} {d : Bool} {b : Nat} {s : State}
    (h : PacksAt i d b s ∨ UnpacksAt i d b s) (hb : 32 < b) : exec i s = .next (raise .widthRange s) := by
  obtain h | h := h
  · rw [exec_of_packsAt h, packAt_of_gt hb]
  · rw [exec_of_unpacksAt h, unpackAt_of_gt hb]

/-- Settles O20: the two operations behind the eight forms check the width first. -/
theorem widthAbove32RaisesWidthRange : Obligations.WidthAbove32RaisesWidthRange :=
  fun _ _ _ _ => exec_of_width_gt

/-! ### The access check (rule R163) -/

/-- The mapped locations from 0x410 on are MAXV and IDR, which are read-only (rule R55). -/
theorem busWrite_of_badAccess {a : Addr} {v : Word} (h : (Transaction.write a v).BadAccess) (s : State) :
    busWrite a v s = .next (raise .accessFault s) := by
  have key : (a.toNat % 4 ≠ 0 ∨ 0x418 ≤ a.toNat) ∨ a.toNat = 0x410 ∨ a.toNat = 0x414 := by
    simp only [Transaction.BadAccess] at h
    omega
  obtain hbad | hmaxv | hidr := key
  · exact busWrite_of_bad hbad v s
  · obtain rfl : a = maxvAddr := BitVec.eq_of_toNat_eq hmaxv
    exact busWrite_addr .maxv v s
  · obtain rfl : a = idrAddr := BitVec.eq_of_toNat_eq hidr
    exact busWrite_addr .idr v s

theorem step_of_badAccess {txn : Transaction} (h : txn.BadAccess) (s : State) :
    step (s.issuing txn) = .next (raise .accessFault s) := by
  cases txn with
  | read a => rw [step_read, busRead_of_peek_eq_none ((peek_eq_none_iff s a).mpr h)]
  | write a v => exact busWrite_of_badAccess h s

/-- Settles O36: the addresses it names are bad accesses, and CMD reads 0. -/
theorem badAccessRaisesAccessFault : Obligations.BadAccessRaisesAccessFault := by
  refine fun s => ⟨fun a v h => ⟨?_, ?_⟩, fun a v h => ?_, step_read_addr .cmd s⟩
  · exact step_of_badAccess (txn := .read a) (h.imp_right And.left) s
  · exact step_of_badAccess (txn := .write a v) (h.imp_right fun hrange => by omega) s
  · refine step_of_badAccess (txn := .write a v) (.inr ?_) s
    obtain rfl | rfl := h <;> decide

/-! ### One transaction, at most one fault (rule R166) -/

/-- The check that refuses a transaction in state `s`, by the fault it raises. A write to CMD is no bad access, and a
word has a width only where it decodes, so the checks exclude each other. -/
inductive RaisesFault (s : State) : Transaction → PortFault → Prop where
  | access {txn : Transaction} (h : txn.BadAccess) : RaisesFault s txn .accessFault
  | command {w : Word} {e : IllegalWord} (h : decode w = .error e) :
      RaisesFault s (.write cmdAddr w) .illegalCommand
  | width {w : Word} {i : Instr} {d : Bool} {b : Nat} (hw : decode w = .ok i)
      (hi : PacksAt i d b s ∨ UnpacksAt i d b s) (hb : 32 < b) : RaisesFault s (.write cmdAddr w) .widthRange

/-- The response of the step has `err = 0`. -/
def Accepted (t : State) : Prop := t.rsp.map (·.err) = some false

theorem step_of_raisesFault {s : State} {txn : Transaction} {f : PortFault} (h : RaisesFault s txn f) :
    step (s.issuing txn) = .next (raise f s) := by
  cases h with
  | access h => exact step_of_badAccess h s
  | command h => exact step_illegal_command h s
  | width hw hi hb => exact (step_command hw s).trans (exec_of_width_gt hi hb)

theorem exec_accepted_of_width_le {i : Instr} {d : Bool} {b : Nat} {s : State}
    (h : PacksAt i d b s ∨ UnpacksAt i d b s) (hb : b ≤ 32) : Answers (exec i s) Accepted := by
  obtain ⟨t, e, hrsp⟩ := exec_writeDone_of_le h hb
  exact answers_of_eq e (congrArg (Option.map Response.err) hrsp)

/-- Of the commands only a pack or an unpack is ever refused, for its width (rule R162). -/
theorem exec_width_gt_or_accepted (i : Instr) (s : State) :
    (∃ d b, (PacksAt i d b s ∨ UnpacksAt i d b s) ∧ 32 < b) ∨ Answers (exec i s) Accepted := by
  refine or_iff_not_imp_left.mpr fun hnot => ?_
  obtain ⟨-, e⟩ | ⟨-, e⟩ | ⟨-, e⟩ | ⟨-, e⟩ | ⟨-, e⟩ | ⟨-, e⟩ | ⟨d, b, hi, -⟩ | ⟨d, b, hi, -⟩ := exec_cases i s
  iterate 6 exact answers_of_eq e rfl
  · exact exec_accepted_of_width_le (.inl hi) (Nat.not_lt.mp fun hb => hnot ⟨d, b, .inl hi, hb⟩)
  · exact exec_accepted_of_width_le (.inr hi) (Nat.not_lt.mp fun hb => hnot ⟨d, b, .inr hi, hb⟩)

theorem writeCmd_raisesFault_or_accepted (w : Word) (s : State) :
    (∃ f, RaisesFault s (.write cmdAddr w) f) ∨ Answers (writeCmd w s) Accepted := by
  cases hw : decode w with
  | error e => exact .inl ⟨_, .command hw⟩
  | ok i =>
    rw [writeCmd_of_ok hw]
    exact (exec_width_gt_or_accepted i s).imp_left fun ⟨_, _, hi, hb⟩ => ⟨_, .width hw hi hb⟩

theorem writeLocation_raisesFault_or_accepted (l : Location) (v : Word) (s : State) :
    (∃ f, RaisesFault s (.write l.addr v) f) ∨ Answers (writeLocation l v s) Accepted := by
  cases l with
  | cmd => exact writeCmd_raisesFault_or_accepted v s
  | maxv | idr => exact .inl ⟨_, .access (.inr (by decide))⟩
  | blk | pln | status | offset | width => exact .inr (answers_of_eq rfl rfl)

/-- A transaction that fails none of the checks is accepted. -/
theorem step_raisesFault_or_accepted (s : State) (txn : Transaction) :
    (∃ f, RaisesFault s txn f) ∨ Answers (step (s.issuing txn)) Accepted := by
  cases txn with
  | read a =>
    obtain ⟨l, -, e⟩ | ⟨hbad, -⟩ := busRead_cases a s
    · exact .inr (answers_of_eq (step_read a s) (e ▸ rfl))
    · exact .inl ⟨_, .access hbad⟩
  | write a v =>
    obtain ⟨l, rfl, -⟩ | ⟨hbad, -⟩ := busWrite_cases a v s
    · exact step_write_addr l v s ▸ writeLocation_raisesFault_or_accepted l v s
    · exact .inl ⟨_, .access (hbad.imp_right (Nat.le_trans (by decide)))⟩

theorem exists_raisesFault_of_err {s u : State} {txn : Transaction} (hstep : step (s.issuing txn) = .next u)
    (herr : u.rsp.map (·.err) = some true) : ∃ f, RaisesFault s txn f := by
  refine (step_raisesFault_or_accepted s txn).resolve_right ?_
  rintro ⟨t, ht, hok⟩
  obtain rfl := Host.Outcome.next.inj (hstep.symm.trans ht)
  exact absurd (herr.symm.trans hok) (by decide)

/-- Settles O37: each failed check decides the whole next state, and an error comes from one of them. -/
theorem oneFaultInTheOrderOfTheChecks : Obligations.OneFaultInTheOrderOfTheChecks := by
  intro s txn
  obtain ⟨u, hu, -⟩ := transact_responds txn s
  have raised {f} (h : RaisesFault s txn f) : u = raise f s :=
    Host.Outcome.next.inj (hu.symm.trans (step_of_raisesFault h))
  refine answers_of_eq hu ⟨fun hbad => raised (.access hbad), ?_, fun herr => ?_⟩
  · rintro w rfl
    exact ⟨fun e he => raised (.command he), fun i d b hw hi hb => raised (.width hw hi hb)⟩
  · obtain ⟨f, hf⟩ := exists_raisesFault_of_err hu herr
    cases hf with
    | access hbad => exact .inl hbad
    | command he => exact .inr ⟨_, rfl, .inl ⟨_, he⟩⟩
    | width hw hi hb => exact .inr ⟨_, rfl, .inr ⟨_, _, _, hw, hi, hb⟩⟩

/-! ### Every error response is on record (rule R160) -/

theorem errorIsRecorded_raise (f : PortFault) (s : State) : ErrorIsRecorded (raise f s) := by
  rintro r ⟨⟩ -
  exact ⟨rfl, f, setFault_recorded f _⟩

theorem errorIsRecorded_of_accepted {t : State} (h : Accepted t) : ErrorIsRecorded t := by
  intro r hr herr
  simp [Accepted, hr, herr] at h

theorem errorIsRecorded_of_rsp_eq_none {t : State} (h : t.rsp = none) : ErrorIsRecorded t :=
  fun _ hr => absurd (h.symm.trans hr) nofun

theorem eventEffect_errorIsRecorded {e : HostEvent} {s t : State} (h : EventEffect e s t) : ErrorIsRecorded t := by
  cases h with
  | raise f => exact errorIsRecorded_raise f s
  | reset => exact errorIsRecorded_of_rsp_eq_none rfl
  | respond | buffers | statusWrite | offsetWrite | widthWrite | analyze | srst =>
    exact errorIsRecorded_of_accepted rfl

/-- Settles O49: only `raise` answers an error, and it records its fault. -/
theorem errorResponsesAreRecorded : Obligations.ErrorResponsesAreRecorded := by
  intro s t hstep
  obtain ⟨-, rfl⟩ | ⟨e, rest, -, heff⟩ := step_cases hstep
  · exact errorIsRecorded_of_rsp_eq_none rfl
  · exact eventEffect_errorIsRecorded heff

/-! ### No flag influences a transaction (rule R170) -/

/-- `u` is `t` with other flags; the response is the same. -/
def SameButStatus (t u : State) : Prop := ∃ st, u = { t with status := st }

section
variable (s : State) (st : Status)

theorem sameButStatus_raise (f : PortFault) : SameButStatus (raise f s) (raise f { s with status := st }) := ⟨_, rfl⟩

theorem sameButStatus_packAt (d : Bool) (b : Nat) :
    SameButStatus (packAt d b s) (packAt d b { s with status := st }) := by
  obtain hb | hb := Nat.lt_or_ge 32 b
  · simpa only [packAt_of_gt hb] using sameButStatus_raise s st _
  · simp only [packAt_of_le hb]
    exact ⟨_, rfl⟩

theorem sameButStatus_unpackAt (d : Bool) (b : Nat) :
    SameButStatus (unpackAt d b s) (unpackAt d b { s with status := st }) := by
  obtain hb | hb := Nat.lt_or_ge 32 b
  · simpa only [unpackAt_of_gt hb] using sameButStatus_raise s st _
  · simp only [unpackAt_of_le hb]
    exact ⟨_, rfl⟩

/-- From `s` and from `s` with the flags `st`, `f` answers states that differ in the flags alone. -/
def IgnoresFlags (f : State → Host.Outcome State Fault Refusal) : Prop :=
  Answers (f s) fun t => Answers (f { s with status := st }) (SameButStatus t)

variable {s st}

theorem ignoresFlags_of_eq {f : State → Host.Outcome State Fault Refusal} {g : State → State}
    (hf : ∀ r, f r = .next (g r)) (hg : SameButStatus (g s) (g { s with status := st })) : IgnoresFlags s st f :=
  answers_of_eq (hf s) (answers_of_eq (hf _) hg)

theorem exec_ignoresFlags (i : Instr) : IgnoresFlags s st (exec i) := by
  cases i with
  | pack | packD | packI | packID =>
    exact ignoresFlags_of_eq (fun _ => rfl) (sameButStatus_packAt s st _ _)
  | unpack | unpackD | unpackI | unpackID =>
    exact ignoresFlags_of_eq (fun _ => rfl) (sameButStatus_unpackAt s st _ _)
  | nop | analyze | analyzeD | delta | undelta | srst => exact ignoresFlags_of_eq (fun _ => rfl) ⟨_, rfl⟩

theorem writeCmd_ignoresFlags (w : Word) : IgnoresFlags s st (writeCmd w) := by
  cases hw : decode w with
  | ok i => simpa only [IgnoresFlags, writeCmd_of_ok hw] using exec_ignoresFlags i
  | error e => exact ignoresFlags_of_eq (writeCmd_of_error hw) (sameButStatus_raise s st _)

theorem writeLocation_ignoresFlags (l : Location) (v : Word) : IgnoresFlags s st (writeLocation l v) := by
  cases l with
  | cmd => exact writeCmd_ignoresFlags v
  | blk | pln | status | offset | width | maxv | idr => exact ignoresFlags_of_eq (fun _ => rfl) ⟨_, rfl⟩

theorem busWrite_ignoresFlags (a : Addr) (v : Word) : IgnoresFlags s st (busWrite a v) := by
  obtain ⟨l, rfl, -⟩ | ⟨hbad, -⟩ := busWrite_cases a v s
  · simpa only [IgnoresFlags, busWrite_addr] using writeLocation_ignoresFlags l v
  · exact ignoresFlags_of_eq (busWrite_of_bad hbad v) (sameButStatus_raise s st _)

/-- Only STATUS itself reads the flags. -/
theorem peek_withStatus {a : Addr} (ha : a ≠ statusAddr) : peek { s with status := st } a = peek s a :=
  peek_congr fun l hl => by
    cases l with
    | status => exact absurd hl ha
    | blk | pln | cmd | offset | width | maxv | idr => rfl

theorem sameButStatus_busRead {a : Addr} (ha : a ≠ statusAddr) :
    SameButStatus (busRead a s) (busRead a { s with status := st }) := by
  have hpeek : peek { s with status := st } a = peek s a := peek_withStatus ha
  cases h : peek s a with
  | some v =>
    rw [busRead_of_peek_eq_some h, busRead_of_peek_eq_some (hpeek.trans h)]
    exact ⟨st, rfl⟩
  | none =>
    rw [busRead_of_peek_eq_none h, busRead_of_peek_eq_none (hpeek.trans h)]
    exact sameButStatus_raise s st _

/-- Every transaction but the read of STATUS (rule R170). -/
theorem transact_ignoresFlags {txn : Transaction} (h : txn ≠ .read statusAddr) : IgnoresFlags s st (transact txn) := by
  cases txn with
  | read a => exact ignoresFlags_of_eq (fun _ => rfl) (sameButStatus_busRead fun ha => h (congrArg _ ha))
  | write a v => exact busWrite_ignoresFlags a v

end

/-- Settles O44: a read of STATUS differs in its data, any other transaction in STATUS alone. -/
theorem setFlagsBlockNothing : Obligations.SetFlagsBlockNothing := by
  intro s st txn
  by_cases h : txn = .read statusAddr
  · subst h
    exact answers_of_eq (step_read_addr .status s) ⟨rfl, answers_of_eq (step_read_addr .status _)
      ⟨rfl, rfl, rfl, rfl, rfl, rfl, rfl, absurd rfl⟩⟩
  · obtain ⟨t, ht, ⟨-, hrsp⟩, u, hu, st', rfl⟩ :=
      answers_and (transact_responds txn s) (transact_ignoresFlags (st := st) h)
    exact answers_of_eq ht ⟨hrsp, answers_of_eq hu ⟨rfl, rfl, rfl, rfl, rfl, rfl, rfl, fun _ => rfl⟩⟩

end Sys2Proof.Machine
end

section
/-! PROOFS. Hardware reset (70_reset_and_hazards.md): `rst_n` clears the CORE from every state and responds to nothing
(rules R190, R191). -/

namespace Sys2Proof.Machine

/-- The transaction a reset abandons leaves no trace (rule R191). -/
theorem serve_reset (ab : Option Transaction) (s : State) : serve (.reset ab) s = .next (cleared s) := rfl

/-- Settles O2: the step serves the reset at the head of the inbox, and `cleared` keeps only the events behind it. -/
theorem hardwareResetFromEveryState : Obligations.HardwareResetFromEveryState := fun s ab rest =>
  calc step { s with inbox := .reset ab :: rest }
    _ = serve (.reset ab) { s with inbox := rest } := step_serve rfl
    _ = .next (cleared { s with inbox := rest }) := serve_reset ab _
    _ = .next { State.reset with inbox := rest } := rfl

end Sys2Proof.Machine
end
